-- ==== Sys2Proof/Word.lean ====
section
/-!
DEFINITION. The bit-vector types of the machine (00_scope.md R8, R11, R12). Everything that says how their bits are
read (fields, extensions, byte order) stands in Decode.lean and Machine/Operands.lean.
-/

namespace Sys2Proof

/-- A register, an address, a data word or an instruction word: 32 bits (R8). Wrapping `+`, `-` are those of R12. -/
abbrev Word := BitVec 32

/-- The smallest addressable unit of the store (R38). -/
abbrev Byte := BitVec 8

/-- A register number as an instruction holds it: 5 bits, so always one of 0..31 (R16, R20). -/
abbrev RegIdx := BitVec 5

/-- The `shamt` field (R66). -/
abbrev Shamt := BitVec 5

/-- The 16-bit immediate of an I-type instruction, not yet extended (R67, R70). -/
abbrev Imm16 := BitVec 16

/-- The 26-bit word index of a J-type instruction (R68). -/
abbrev Target26 := BitVec 26

end Sys2Proof
end

