-- ==== Sys2Proof/Syntax.lean ====
section
/-!
DEFINITION. The 47 instructions of the cw1 MIPS subset (00_scope.md R2), one constructor per row of
spec/opcode_table.json, operands in the order of the spec's own syntax (30_encoding.md R82).

A field that decode does not check and no rule reads (JR's `rd`, the `rt` of BLEZ and BGTZ: R77, D4) is an operand
all the same, so that no bit of a word is dropped. All operands have the exact width of their field, so every term
of `Instr` has an encoding.
-/

namespace Sys2Proof

/-- The three structural types (R64). -/
inductive Format where
  | rType
  | iType
  | jType
  deriving DecidableEq, Repr

/-- The named fields of an instruction word (R65 to R68). -/
inductive FieldName where
  | opcode
  | rs
  | rt
  | rd
  | shamt
  | funct
  | imm
  | target
  deriving DecidableEq, Repr

/-- All fields of one word, read under all three layouts at once (R66, R67, R68). -/
structure Fields where
  opcode : BitVec 6
  rs     : RegIdx
  rt     : RegIdx
  rd     : RegIdx
  shamt  : Shamt
  funct  : BitVec 6
  imm    : Imm16
  target : Target26
  deriving DecidableEq, Repr

/-- The instruction set (R2). -/
inductive Instr where
  /-- `SLL rd, rt, shamt` (R124). -/
  | sll (rd rt : RegIdx) (shamt : Shamt)
  /-- `SRL rd, rt, shamt` (R125). -/
  | srl (rd rt : RegIdx) (shamt : Shamt)
  /-- `SRA rd, rt, shamt` (R126). -/
  | sra (rd rt : RegIdx) (shamt : Shamt)
  /-- `SLLV rd, rt, rs` (R127). -/
  | sllv (rd rt rs : RegIdx)
  /-- `SRLV rd, rt, rs` (R128). -/
  | srlv (rd rt rs : RegIdx)
  /-- `JR rs` (R144): `rt` is read, `rd` is neither checked nor read. -/
  | jr (rs rt rd : RegIdx)
  /-- `MFHI rd` (R115). -/
  | mfhi (rd : RegIdx)
  /-- `MFLO rd` (R116). -/
  | mflo (rd : RegIdx)
  /-- `MULT rs, rt` (R111). -/
  | mult (rs rt : RegIdx)
  /-- `MULTU rs, rt` (R112). -/
  | multu (rs rt : RegIdx)
  /-- `DIV rs, rt` (R113). -/
  | div (rs rt : RegIdx)
  /-- `DIVU rs, rt` (R114). -/
  | divu (rs rt : RegIdx)
  /-- `ADD rd, rs, rt` (R105). -/
  | add (rd rs rt : RegIdx)
  /-- `ADDU rd, rs, rt` (R106). -/
  | addu (rd rs rt : RegIdx)
  /-- `SUB rd, rs, rt` (R107). -/
  | sub (rd rs rt : RegIdx)
  /-- `SUBU rd, rs, rt` (R108). -/
  | subu (rd rs rt : RegIdx)
  /-- `AND rd, rs, rt` (R117). -/
  | and (rd rs rt : RegIdx)
  /-- `OR rd, rs, rt` (R118). -/
  | or (rd rs rt : RegIdx)
  /-- `XOR rd, rs, rt` (R119). -/
  | xor (rd rs rt : RegIdx)
  /-- `SLT rd, rs, rt` (R129). -/
  | slt (rd rs rt : RegIdx)
  /-- `SLTU rd, rs, rt` (R130). -/
  | sltu (rd rs rt : RegIdx)
  /-- `BLTZ rs, off` (R138). -/
  | bltz (rs : RegIdx) (off : Imm16)
  /-- `BGEZ rs, off` (R139). -/
  | bgez (rs : RegIdx) (off : Imm16)
  /-- `BLTZAL rs, off` (R140). -/
  | bltzal (rs : RegIdx) (off : Imm16)
  /-- `BGEZAL rs, off` (R141). -/
  | bgezal (rs : RegIdx) (off : Imm16)
  /-- `J target` (R142). -/
  | j (target : Target26)
  /-- `JAL target` (R143). -/
  | jal (target : Target26)
  /-- `BEQ rs, rt, off` (R134). -/
  | beq (rs rt : RegIdx) (off : Imm16)
  /-- `BNE rs, rt, off` (R135). -/
  | bne (rs rt : RegIdx) (off : Imm16)
  /-- `BLEZ rs, off` (R136): the `rt` field is neither checked nor read (D4). -/
  | blez (rs rt : RegIdx) (off : Imm16)
  /-- `BGTZ rs, off` (R137): the `rt` field is neither checked nor read (D4). -/
  | bgtz (rs rt : RegIdx) (off : Imm16)
  /-- `ADDI rt, rs, imm` (R109). -/
  | addi (rt rs : RegIdx) (imm : Imm16)
  /-- `ADDIU rt, rs, imm` (R110). -/
  | addiu (rt rs : RegIdx) (imm : Imm16)
  /-- `SLTI rt, rs, imm` (R131). -/
  | slti (rt rs : RegIdx) (imm : Imm16)
  /-- `SLTIU rt, rs, imm` (R132). -/
  | sltiu (rt rs : RegIdx) (imm : Imm16)
  /-- `ANDI rt, rs, imm` (R120). -/
  | andi (rt rs : RegIdx) (imm : Imm16)
  /-- `ORI rt, rs, imm` (R121). -/
  | ori (rt rs : RegIdx) (imm : Imm16)
  /-- `XORI rt, rs, imm` (R122). -/
  | xori (rt rs : RegIdx) (imm : Imm16)
  /-- `LUI rt, imm` (R123). -/
  | lui (rt : RegIdx) (imm : Imm16)
  /-- `LB rt, imm(rs)` (R146). -/
  | lb (rt rs : RegIdx) (imm : Imm16)
  /-- `LWL rt, imm(rs)` (R149). -/
  | lwl (rt rs : RegIdx) (imm : Imm16)
  /-- `LW rt, imm(rs)` (R148). -/
  | lw (rt rs : RegIdx) (imm : Imm16)
  /-- `LBU rt, imm(rs)` (R147). -/
  | lbu (rt rs : RegIdx) (imm : Imm16)
  /-- `LWR rt, imm(rs)` (R150). -/
  | lwr (rt rs : RegIdx) (imm : Imm16)
  /-- `SB rt, imm(rs)` (R151). -/
  | sb (rt rs : RegIdx) (imm : Imm16)
  /-- `SH rt, imm(rs)` (R152). -/
  | sh (rt rs : RegIdx) (imm : Imm16)
  /-- `SW rt, imm(rs)` (R153). -/
  | sw (rt rs : RegIdx) (imm : Imm16)
  deriving DecidableEq, Repr

end Sys2Proof
end

