-- ==== Sys2Proof/WellFormed.lean ====
section
/-!
DEFINITION. Which instructions the spec's own syntax writes (30_encoding.md R82).

The operands of `Instr` have the exact width of their fields, so no term of `Instr` is out of range and every one of
them encodes to a word that decode accepts (R77 to R79). What remains to be checked of a term is whether it is a form
that the syntax of R82 can spell: JR with `rt = rd = 0`, and BLEZ and BGTZ with `rt = 0`. The other forms decode and
execute as well (R77, D4, D5); the machine makes no use of this check. The checks of the fields of a raw word
(R77, R78) are part of the decoder and stand in Decode.lean.
-/

namespace Sys2Proof

/-- The instruction is written by the syntax of R82: its unread or unchecked register fields are 0. -/
def Instr.assembled : Instr → Bool
  | .jr _ rt rd => rt == 0#5 && rd == 0#5
  | .blez _ rt _ => rt == 0#5
  | .bgtz _ rt _ => rt == 0#5
  | .sll .. | .srl .. | .sra .. | .sllv .. | .srlv .. | .mfhi _ | .mflo _ | .mult .. | .multu .. | .div .. | .divu ..
  | .add .. | .addu .. | .sub .. | .subu .. | .and .. | .or .. | .xor .. | .slt .. | .sltu ..
  | .bltz .. | .bgez .. | .bltzal .. | .bgezal .. | .j _ | .jal _ | .beq .. | .bne ..
  | .addi .. | .addiu .. | .slti .. | .sltiu .. | .andi .. | .ori .. | .xori .. | .lui ..
  | .lb .. | .lwl .. | .lw .. | .lbu .. | .lwr .. | .sb .. | .sh .. | .sw .. => true

end Sys2Proof
end

