-- ==== Sys2Proof/Decode.lean ====
section
/-!
DEFINITION. Decoding and encoding (30_encoding.md): the fields of a word (R65 to R68), the decoder (R74 to R80), the
big-endian byte order of words (R41, R42), the encoder, and the rows of spec/opcode_table.json as masks and patterns.

The numeric codes and field positions are the spec's (D2, D3), which it took from general knowledge of MIPS I
(log entry 8, UNVERIFIED against the source).
-/

namespace Sys2Proof

/-! ## Bytes and words: big-endian (R41) -/

/-- The value of a byte sequence, most significant byte first, zero-extended to 32 bits (R49). -/
def beWord (bytes : List Byte) : Word :=
  bytes.foldl (fun acc b => (acc <<< 8) ||| b.setWidth 32) 0#32

/-- The low `n` bytes of a word, most significant of them first (R50). -/
def beBytes : Nat → Word → List Byte
  | 0, _ => []
  | n + 1, v => (v >>> (8 * n)).setWidth 8 :: beBytes n v

/-! ## Fields -/

/-- Every field of a word, at the positions of R65 to R68. -/
def fieldsOf (w : Word) : Fields where
  opcode := w.extractLsb' 26 6
  rs     := w.extractLsb' 21 5
  rt     := w.extractLsb' 16 5
  rd     := w.extractLsb' 11 5
  shamt  := w.extractLsb' 6 5
  funct  := w.extractLsb' 0 6
  imm    := w.extractLsb' 0 16
  target := w.extractLsb' 0 26

/-! ## Field checks (the "reserved field discipline" of R77 and R78) -/

/-- R77 condition 2 for SLL, SRL, SRA: `rs = 0`, any `shamt`. -/
def Fields.shiftOk (f : Fields) : Bool := f.rs == 0#5

/-- R77 condition 2 for every other R-type mnemonic: `shamt = 0`. -/
def Fields.plainOk (f : Fields) : Bool := f.shamt == 0#5

/-- R77 conditions 2 and 3 for MULT, MULTU, DIV, DIVU: `shamt = 0` and `rd = 0`. -/
def Fields.mulDivOk (f : Fields) : Bool := f.shamt == 0#5 && f.rd == 0#5

/-- R77 conditions 2 and 4 for MFHI, MFLO: `shamt = 0`, `rs = 0` and `rt = 0`. -/
def Fields.moveOk (f : Fields) : Bool := f.shamt == 0#5 && f.rs == 0#5 && f.rt == 0#5

/-- R78 condition 3 for LUI: `rs = 0`. -/
def Fields.luiOk (f : Fields) : Bool := f.rs == 0#5

/-! ## The decoder -/

/-- Why a decode is rejected. -/
inductive DecodeError where
  /-- No entry matches the word under the structural constraints (R80): `InvalidInstruction`. -/
  | invalidInstruction
  /-- The byte sequence is not one 32-bit word (R63). Fetch always supplies four bytes, so no step meets it. -/
  | notOneWord
  deriving DecidableEq, Repr

/-- The instruction if its field check holds, `InvalidInstruction` otherwise (R80, R104). -/
def accept (fieldsOk : Bool) (i : Instr) : Except DecodeError Instr :=
  if fieldsOk then .ok i else .error .invalidInstruction

/-- Opcode 0 (SPECIAL): the entry is selected by `funct` (R74, R77). -/
def decodeSpecial (f : Fields) : Except DecodeError Instr :=
  match f.funct with
  | 0x00#6 => accept f.shiftOk (.sll f.rd f.rt f.shamt)
  | 0x02#6 => accept f.shiftOk (.srl f.rd f.rt f.shamt)
  | 0x03#6 => accept f.shiftOk (.sra f.rd f.rt f.shamt)
  | 0x04#6 => accept f.plainOk (.sllv f.rd f.rt f.rs)
  | 0x06#6 => accept f.plainOk (.srlv f.rd f.rt f.rs)
  | 0x08#6 => accept f.plainOk (.jr f.rs f.rt f.rd)
  | 0x10#6 => accept f.moveOk (.mfhi f.rd)
  | 0x12#6 => accept f.moveOk (.mflo f.rd)
  | 0x18#6 => accept f.mulDivOk (.mult f.rs f.rt)
  | 0x19#6 => accept f.mulDivOk (.multu f.rs f.rt)
  | 0x1A#6 => accept f.mulDivOk (.div f.rs f.rt)
  | 0x1B#6 => accept f.mulDivOk (.divu f.rs f.rt)
  | 0x20#6 => accept f.plainOk (.add f.rd f.rs f.rt)
  | 0x21#6 => accept f.plainOk (.addu f.rd f.rs f.rt)
  | 0x22#6 => accept f.plainOk (.sub f.rd f.rs f.rt)
  | 0x23#6 => accept f.plainOk (.subu f.rd f.rs f.rt)
  | 0x24#6 => accept f.plainOk (.and f.rd f.rs f.rt)
  | 0x25#6 => accept f.plainOk (.or f.rd f.rs f.rt)
  | 0x26#6 => accept f.plainOk (.xor f.rd f.rs f.rt)
  | 0x2A#6 => accept f.plainOk (.slt f.rd f.rs f.rt)
  | 0x2B#6 => accept f.plainOk (.sltu f.rd f.rs f.rt)
  | _ => .error .invalidInstruction

/-- Opcode 1 (REGIMM): the entry is selected by the "fake rt" discriminator (R75, R78). -/
def decodeRegimm (f : Fields) : Except DecodeError Instr :=
  match f.rt with
  | 0x00#5 => .ok (.bltz f.rs f.imm)
  | 0x01#5 => .ok (.bgez f.rs f.imm)
  | 0x10#5 => .ok (.bltzal f.rs f.imm)
  | 0x11#5 => .ok (.bgezal f.rs f.imm)
  | _ => .error .invalidInstruction

/-- The entry of a word's fields, or `InvalidInstruction` (R74 to R80). -/
def decodeFields (f : Fields) : Except DecodeError Instr :=
  match f.opcode with
  | 0x00#6 => decodeSpecial f
  | 0x01#6 => decodeRegimm f
  | 0x02#6 => .ok (.j f.target)
  | 0x03#6 => .ok (.jal f.target)
  | 0x04#6 => .ok (.beq f.rs f.rt f.imm)
  | 0x05#6 => .ok (.bne f.rs f.rt f.imm)
  | 0x06#6 => .ok (.blez f.rs f.rt f.imm)
  | 0x07#6 => .ok (.bgtz f.rs f.rt f.imm)
  | 0x08#6 => .ok (.addi f.rt f.rs f.imm)
  | 0x09#6 => .ok (.addiu f.rt f.rs f.imm)
  | 0x0A#6 => .ok (.slti f.rt f.rs f.imm)
  | 0x0B#6 => .ok (.sltiu f.rt f.rs f.imm)
  | 0x0C#6 => .ok (.andi f.rt f.rs f.imm)
  | 0x0D#6 => .ok (.ori f.rt f.rs f.imm)
  | 0x0E#6 => .ok (.xori f.rt f.rs f.imm)
  | 0x0F#6 => accept f.luiOk (.lui f.rt f.imm)
  | 0x20#6 => .ok (.lb f.rt f.rs f.imm)
  | 0x22#6 => .ok (.lwl f.rt f.rs f.imm)
  | 0x23#6 => .ok (.lw f.rt f.rs f.imm)
  | 0x24#6 => .ok (.lbu f.rt f.rs f.imm)
  | 0x26#6 => .ok (.lwr f.rt f.rs f.imm)
  | 0x28#6 => .ok (.sb f.rt f.rs f.imm)
  | 0x29#6 => .ok (.sh f.rt f.rs f.imm)
  | 0x2B#6 => .ok (.sw f.rt f.rs f.imm)
  | _ => .error .invalidInstruction

/-- Decode, total on words (R80). -/
def decode (w : Word) : Except DecodeError Instr := decodeFields (fieldsOf w)

/-- Decode, total on byte sequences: an instruction is one big-endian word (R63). -/
def decodeBytes (bytes : List Byte) : Except DecodeError Instr :=
  if bytes.length = 4 then decode (beWord bytes) else .error .notOneWord

/-- The bytes of the table's word as the hardware stores it: one word, big-endian, the bits above `nbits` zero. -/
def tableWordBytes (nbits w : Nat) : List Byte := beBytes 4 (BitVec.ofNat 32 (w % 2 ^ nbits))

/-- The instruction the decoder reads from a table word of `nbits` bits (every row has 32). -/
def decodeTableWord (nbits w : Nat) : Option Instr :=
  match decodeBytes (tableWordBytes nbits w) with
  | .ok i => some i
  | .error _ => none

/-! ## The encoder -/

/-- An R-type word (R66): opcode 0. -/
def rWord (rs rt rd : RegIdx) (shamt : Shamt) (funct : BitVec 6) : Word :=
  0x00#6 ++ rs ++ rt ++ rd ++ shamt ++ funct

/-- An I-type word (R67). -/
def iWord (opcode : BitVec 6) (rs rt : RegIdx) (imm : Imm16) : Word :=
  opcode ++ rs ++ rt ++ imm

/-- A J-type word (R68). -/
def jWord (opcode : BitVec 6) (target : Target26) : Word :=
  opcode ++ target

/-- The word of an instruction, from the tables of R74, R75 and R76. -/
def encode : Instr → Word
  | .sll rd rt shamt => rWord 0#5 rt rd shamt 0x00#6
  | .srl rd rt shamt => rWord 0#5 rt rd shamt 0x02#6
  | .sra rd rt shamt => rWord 0#5 rt rd shamt 0x03#6
  | .sllv rd rt rs => rWord rs rt rd 0#5 0x04#6
  | .srlv rd rt rs => rWord rs rt rd 0#5 0x06#6
  | .jr rs rt rd => rWord rs rt rd 0#5 0x08#6
  | .mfhi rd => rWord 0#5 0#5 rd 0#5 0x10#6
  | .mflo rd => rWord 0#5 0#5 rd 0#5 0x12#6
  | .mult rs rt => rWord rs rt 0#5 0#5 0x18#6
  | .multu rs rt => rWord rs rt 0#5 0#5 0x19#6
  | .div rs rt => rWord rs rt 0#5 0#5 0x1A#6
  | .divu rs rt => rWord rs rt 0#5 0#5 0x1B#6
  | .add rd rs rt => rWord rs rt rd 0#5 0x20#6
  | .addu rd rs rt => rWord rs rt rd 0#5 0x21#6
  | .sub rd rs rt => rWord rs rt rd 0#5 0x22#6
  | .subu rd rs rt => rWord rs rt rd 0#5 0x23#6
  | .and rd rs rt => rWord rs rt rd 0#5 0x24#6
  | .or rd rs rt => rWord rs rt rd 0#5 0x25#6
  | .xor rd rs rt => rWord rs rt rd 0#5 0x26#6
  | .slt rd rs rt => rWord rs rt rd 0#5 0x2A#6
  | .sltu rd rs rt => rWord rs rt rd 0#5 0x2B#6
  | .bltz rs off => iWord 0x01#6 rs 0x00#5 off
  | .bgez rs off => iWord 0x01#6 rs 0x01#5 off
  | .bltzal rs off => iWord 0x01#6 rs 0x10#5 off
  | .bgezal rs off => iWord 0x01#6 rs 0x11#5 off
  | .j target => jWord 0x02#6 target
  | .jal target => jWord 0x03#6 target
  | .beq rs rt off => iWord 0x04#6 rs rt off
  | .bne rs rt off => iWord 0x05#6 rs rt off
  | .blez rs rt off => iWord 0x06#6 rs rt off
  | .bgtz rs rt off => iWord 0x07#6 rs rt off
  | .addi rt rs imm => iWord 0x08#6 rs rt imm
  | .addiu rt rs imm => iWord 0x09#6 rs rt imm
  | .slti rt rs imm => iWord 0x0A#6 rs rt imm
  | .sltiu rt rs imm => iWord 0x0B#6 rs rt imm
  | .andi rt rs imm => iWord 0x0C#6 rs rt imm
  | .ori rt rs imm => iWord 0x0D#6 rs rt imm
  | .xori rt rs imm => iWord 0x0E#6 rs rt imm
  | .lui rt imm => iWord 0x0F#6 0#5 rt imm
  | .lb rt rs imm => iWord 0x20#6 rs rt imm
  | .lwl rt rs imm => iWord 0x22#6 rs rt imm
  | .lw rt rs imm => iWord 0x23#6 rs rt imm
  | .lbu rt rs imm => iWord 0x24#6 rs rt imm
  | .lwr rt rs imm => iWord 0x26#6 rs rt imm
  | .sb rt rs imm => iWord 0x28#6 rs rt imm
  | .sh rt rs imm => iWord 0x29#6 rs rt imm
  | .sw rt rs imm => iWord 0x2B#6 rs rt imm

/-! ## Structural types and field accessors -/

/-- The structural type of an entry (R64): opcode 0 is R-type, J and JAL are J-type, every other entry is I-type. -/
def Instr.format (i : Instr) : Format :=
  match (fieldsOf (encode i)).opcode with
  | 0x00#6 => .rType
  | 0x02#6 => .jType
  | 0x03#6 => .jType
  | _ => .iType

/-- Which fields are meaningful to a structural type (R66 to R69). -/
def Format.hasField : Format → FieldName → Bool
  | .rType, .opcode | .rType, .rs | .rType, .rt | .rType, .rd | .rType, .shamt | .rType, .funct => true
  | .iType, .opcode | .iType, .rs | .iType, .rt | .iType, .imm => true
  | .jType, .opcode | .jType, .target => true
  | .rType, .imm | .rType, .target => false
  | .iType, .rd | .iType, .shamt | .iType, .funct | .iType, .target => false
  | .jType, .rs | .jType, .rt | .jType, .rd | .jType, .shamt | .jType, .funct | .jType, .imm => false

/-- The value of one named field. -/
def Fields.get (f : Fields) : FieldName → Nat
  | .opcode => f.opcode.toNat
  | .rs => f.rs.toNat
  | .rt => f.rt.toNat
  | .rd => f.rd.toNat
  | .shamt => f.shamt.toNat
  | .funct => f.funct.toNat
  | .imm => f.imm.toNat
  | .target => f.target.toNat

/-- The field accessor of a decoded instruction: none for a field that its structural type lacks, which the source
calls an error (R69). The machine's `readField` turns that into `InternalError`. -/
def Instr.field? (i : Instr) (n : FieldName) : Option Nat :=
  if i.format.hasField n then some ((fieldsOf (encode i)).get n) else none

/-! ## The opcode table as masks and patterns -/

/-- One row of spec/opcode_table.json: a word `w` is of the row when `w &&& mask = pattern`. -/
structure OpcodeRow where
  mnemonic : String
  mask     : Word
  pattern  : Word
  deriving DecidableEq, Repr

/-- The word is one of the row. -/
def OpcodeRow.matchesWord (r : OpcodeRow) (w : Word) : Bool := w &&& r.mask == r.pattern

/-- The row of spec/opcode_table.json that a constructor stands for. -/
def Instr.row : Instr → OpcodeRow
  | .sll .. => ⟨"SLL", 0xFFE0003F#32, 0x00000000#32⟩
  | .srl .. => ⟨"SRL", 0xFFE0003F#32, 0x00000002#32⟩
  | .sra .. => ⟨"SRA", 0xFFE0003F#32, 0x00000003#32⟩
  | .sllv .. => ⟨"SLLV", 0xFC0007FF#32, 0x00000004#32⟩
  | .srlv .. => ⟨"SRLV", 0xFC0007FF#32, 0x00000006#32⟩
  | .jr .. => ⟨"JR", 0xFC0007FF#32, 0x00000008#32⟩
  | .mfhi .. => ⟨"MFHI", 0xFFFF07FF#32, 0x00000010#32⟩
  | .mflo .. => ⟨"MFLO", 0xFFFF07FF#32, 0x00000012#32⟩
  | .mult .. => ⟨"MULT", 0xFC00FFFF#32, 0x00000018#32⟩
  | .multu .. => ⟨"MULTU", 0xFC00FFFF#32, 0x00000019#32⟩
  | .div .. => ⟨"DIV", 0xFC00FFFF#32, 0x0000001A#32⟩
  | .divu .. => ⟨"DIVU", 0xFC00FFFF#32, 0x0000001B#32⟩
  | .add .. => ⟨"ADD", 0xFC0007FF#32, 0x00000020#32⟩
  | .addu .. => ⟨"ADDU", 0xFC0007FF#32, 0x00000021#32⟩
  | .sub .. => ⟨"SUB", 0xFC0007FF#32, 0x00000022#32⟩
  | .subu .. => ⟨"SUBU", 0xFC0007FF#32, 0x00000023#32⟩
  | .and .. => ⟨"AND", 0xFC0007FF#32, 0x00000024#32⟩
  | .or .. => ⟨"OR", 0xFC0007FF#32, 0x00000025#32⟩
  | .xor .. => ⟨"XOR", 0xFC0007FF#32, 0x00000026#32⟩
  | .slt .. => ⟨"SLT", 0xFC0007FF#32, 0x0000002A#32⟩
  | .sltu .. => ⟨"SLTU", 0xFC0007FF#32, 0x0000002B#32⟩
  | .bltz .. => ⟨"BLTZ", 0xFC1F0000#32, 0x04000000#32⟩
  | .bgez .. => ⟨"BGEZ", 0xFC1F0000#32, 0x04010000#32⟩
  | .bltzal .. => ⟨"BLTZAL", 0xFC1F0000#32, 0x04100000#32⟩
  | .bgezal .. => ⟨"BGEZAL", 0xFC1F0000#32, 0x04110000#32⟩
  | .j .. => ⟨"J", 0xFC000000#32, 0x08000000#32⟩
  | .jal .. => ⟨"JAL", 0xFC000000#32, 0x0C000000#32⟩
  | .beq .. => ⟨"BEQ", 0xFC000000#32, 0x10000000#32⟩
  | .bne .. => ⟨"BNE", 0xFC000000#32, 0x14000000#32⟩
  | .blez .. => ⟨"BLEZ", 0xFC000000#32, 0x18000000#32⟩
  | .bgtz .. => ⟨"BGTZ", 0xFC000000#32, 0x1C000000#32⟩
  | .addi .. => ⟨"ADDI", 0xFC000000#32, 0x20000000#32⟩
  | .addiu .. => ⟨"ADDIU", 0xFC000000#32, 0x24000000#32⟩
  | .slti .. => ⟨"SLTI", 0xFC000000#32, 0x28000000#32⟩
  | .sltiu .. => ⟨"SLTIU", 0xFC000000#32, 0x2C000000#32⟩
  | .andi .. => ⟨"ANDI", 0xFC000000#32, 0x30000000#32⟩
  | .ori .. => ⟨"ORI", 0xFC000000#32, 0x34000000#32⟩
  | .xori .. => ⟨"XORI", 0xFC000000#32, 0x38000000#32⟩
  | .lui .. => ⟨"LUI", 0xFFE00000#32, 0x3C000000#32⟩
  | .lb .. => ⟨"LB", 0xFC000000#32, 0x80000000#32⟩
  | .lwl .. => ⟨"LWL", 0xFC000000#32, 0x88000000#32⟩
  | .lw .. => ⟨"LW", 0xFC000000#32, 0x8C000000#32⟩
  | .lbu .. => ⟨"LBU", 0xFC000000#32, 0x90000000#32⟩
  | .lwr .. => ⟨"LWR", 0xFC000000#32, 0x98000000#32⟩
  | .sb .. => ⟨"SB", 0xFC000000#32, 0xA0000000#32⟩
  | .sh .. => ⟨"SH", 0xFC000000#32, 0xA4000000#32⟩
  | .sw .. => ⟨"SW", 0xFC000000#32, 0xAC000000#32⟩

/-- The rows with opcode 0, selected by `funct` (R74). -/
def opcodeTableSpecial : List OpcodeRow :=
  [⟨"SLL", 0xFFE0003F#32, 0x00000000#32⟩, ⟨"SRL", 0xFFE0003F#32, 0x00000002#32⟩,
   ⟨"SRA", 0xFFE0003F#32, 0x00000003#32⟩, ⟨"SLLV", 0xFC0007FF#32, 0x00000004#32⟩,
   ⟨"SRLV", 0xFC0007FF#32, 0x00000006#32⟩, ⟨"JR", 0xFC0007FF#32, 0x00000008#32⟩,
   ⟨"MFHI", 0xFFFF07FF#32, 0x00000010#32⟩, ⟨"MFLO", 0xFFFF07FF#32, 0x00000012#32⟩,
   ⟨"MULT", 0xFC00FFFF#32, 0x00000018#32⟩, ⟨"MULTU", 0xFC00FFFF#32, 0x00000019#32⟩,
   ⟨"DIV", 0xFC00FFFF#32, 0x0000001A#32⟩, ⟨"DIVU", 0xFC00FFFF#32, 0x0000001B#32⟩,
   ⟨"ADD", 0xFC0007FF#32, 0x00000020#32⟩, ⟨"ADDU", 0xFC0007FF#32, 0x00000021#32⟩,
   ⟨"SUB", 0xFC0007FF#32, 0x00000022#32⟩, ⟨"SUBU", 0xFC0007FF#32, 0x00000023#32⟩,
   ⟨"AND", 0xFC0007FF#32, 0x00000024#32⟩, ⟨"OR", 0xFC0007FF#32, 0x00000025#32⟩,
   ⟨"XOR", 0xFC0007FF#32, 0x00000026#32⟩, ⟨"SLT", 0xFC0007FF#32, 0x0000002A#32⟩,
   ⟨"SLTU", 0xFC0007FF#32, 0x0000002B#32⟩]

/-- The REGIMM rows (R75) and the rows selected by the opcode alone (R76). -/
def opcodeTableOther : List OpcodeRow :=
  [⟨"BLTZ", 0xFC1F0000#32, 0x04000000#32⟩, ⟨"BGEZ", 0xFC1F0000#32, 0x04010000#32⟩,
   ⟨"BLTZAL", 0xFC1F0000#32, 0x04100000#32⟩, ⟨"BGEZAL", 0xFC1F0000#32, 0x04110000#32⟩,
   ⟨"J", 0xFC000000#32, 0x08000000#32⟩, ⟨"JAL", 0xFC000000#32, 0x0C000000#32⟩,
   ⟨"BEQ", 0xFC000000#32, 0x10000000#32⟩, ⟨"BNE", 0xFC000000#32, 0x14000000#32⟩,
   ⟨"BLEZ", 0xFC000000#32, 0x18000000#32⟩, ⟨"BGTZ", 0xFC000000#32, 0x1C000000#32⟩,
   ⟨"ADDI", 0xFC000000#32, 0x20000000#32⟩, ⟨"ADDIU", 0xFC000000#32, 0x24000000#32⟩,
   ⟨"SLTI", 0xFC000000#32, 0x28000000#32⟩, ⟨"SLTIU", 0xFC000000#32, 0x2C000000#32⟩,
   ⟨"ANDI", 0xFC000000#32, 0x30000000#32⟩, ⟨"ORI", 0xFC000000#32, 0x34000000#32⟩,
   ⟨"XORI", 0xFC000000#32, 0x38000000#32⟩, ⟨"LUI", 0xFFE00000#32, 0x3C000000#32⟩,
   ⟨"LB", 0xFC000000#32, 0x80000000#32⟩, ⟨"LWL", 0xFC000000#32, 0x88000000#32⟩,
   ⟨"LW", 0xFC000000#32, 0x8C000000#32⟩, ⟨"LBU", 0xFC000000#32, 0x90000000#32⟩,
   ⟨"LWR", 0xFC000000#32, 0x98000000#32⟩, ⟨"SB", 0xFC000000#32, 0xA0000000#32⟩,
   ⟨"SH", 0xFC000000#32, 0xA4000000#32⟩, ⟨"SW", 0xFC000000#32, 0xAC000000#32⟩]

/-- The whole of spec/opcode_table.json, in its order. -/
def opcodeTable : List OpcodeRow := opcodeTableSpecial ++ opcodeTableOther

end Sys2Proof
end

