-- ==== Sys2Proof/Config.lean ====
section
/-!
DEFINITION. The parameters of 00_scope.md R9.

`DIV0_RESULT` is a function the source leaves open (D14): it is `Config.div0Result`, which has no body, so nothing
can be proved of its values. `LINK_ON_NOT_TAKEN` and `EA_OVERFLOW_CHECK` are plain data carried by the state and
never written by a step, so that every statement over all states holds for both readings. `MEM_SIZE` and
`BLOCK_SIZE` belong to the store (Machine/State.lean, `Memory`). `END_OF_RUN` is an argument of `runUntil`
(Machine/PublicOps.lean).
-/

namespace Sys2Proof

/-- Which division asks for a zero-divisor result: the first argument of `DIV0_RESULT` (R9). -/
inductive DivVariant where
  | div
  | divu
  deriving DecidableEq, Repr

/-- The two Boolean parameters of R9, fixed for the lifetime of one CPU+Memory instance. -/
structure Params where
  /-- `LINK_ON_NOT_TAKEN`: BGEZAL and BLTZAL write r31 when not taken too (R99). -/
  linkOnNotTaken  : Bool
  /-- `EA_OVERFLOW_CHECK`: the signed add of loads, stores and JR raises `ArithmeticOverflow` (R90). -/
  eaOverflowCheck : Bool
  deriving DecidableEq, Repr

/-- The values the spec decides for the two parameters (D16, D6). -/
def Params.decided : Params := { linkOnNotTaken := true, eaOverflowCheck := false }

/-- FREE VALUE (log entry 3). `DIV0_RESULT(variant, dividend, old HI, old LO)` is the pair (new HI, new LO) of a
division whose divisor is 0 (R91, D14). It has no body: a proof can use only that it is a function. -/
opaque Config.div0Result (variant : DivVariant) (dividend oldHi oldLo : Word) : Word × Word

/-- DESIGN CHOICE (log entry 1). `MEM_SIZE` of the store of `State.reset`; the spec leaves it open (D25). -/
def Config.resetMemSize : Nat := 0x10000

/-- The block size of a store that a CPU may be bound to (R48). -/
def Config.cpuBlockSize : Nat := 4

end Sys2Proof
end

