-- ==== Sys2Proof/Machine/State.lean ====
section
/-!
DEFINITION. The state of one CPU bound to one Memory, as plain data (10_state.md R30), why a step can stop
(60_exceptions.md R155), and the machine right after reset (10_state.md R36, 70_reset_and_hazards.md R173).
-/

namespace Sys2Proof.Machine

/-- The seven error kinds (R155). A step that fails answers one of them; the state after the failed step is
`afterFailedStep` (Machine/Ops.lean): the state before it but for `ir` (R102). The block goes on accepting host
operations after a failure (R161); the machine of Host/Core.lean stops there, which is the end of a run by D31. -/
inductive Fault where
  /-- "out-of-range register index" (R20): raised by the host's `getRegister` and `setRegister` only, never by a
  step. Exact. -/
  | invalidArgument
  /-- No entry matches the fetched word (R80): raised by `step` after a successful fetch. Exact. -/
  | invalidInstruction
  /-- Block-size or instruction-mandated alignment (R43, R51, R52): raised by fetch, LW, SW, SH, and by the host's
  `memRead` and `memWrite`. Exact; which kind is reported when two apply is the spec's decision (D8, D10). -/
  | invalidAlignment
  /-- An access beyond `MEM_SIZE` (R43): raised by fetch, every load and store, and by the host's `memRead` and
  `memWrite`. Exact. -/
  | invalidAddress
  /-- The signed result does not fit (R90): raised by ADD, ADDI, SUB, and by loads, stores and JR when
  `EA_OVERFLOW_CHECK` is set. Exact. -/
  | arithmeticOverflow
  /-- A bypass of the PC/NPC write protection (R23): the kind exists and nothing raises it. Exact. -/
  | accessViolation
  /-- An invariant violation (R171): raised only by the checked stage helpers `writeBack` and `readField` of
  Machine/Pipeline.lean on arguments that no step gives them, never by a step. Exact. -/
  | internalError
  deriving DecidableEq, Repr

/-- Why the model gives no meaning. None of these can come from the reset state of a CPU bound as the spec says. -/
inductive Refusal where
  /-- An instruction without a meaning in this model: raised by `exec`'s refused arms only (there are none). Safe. -/
  | notModelled (mnemonic : String)
  /-- A store with a block size other than 4: raised by `createCpu` and by `step` (R48, D9). Safe. -/
  | blockSizeNotFour
  /-- `step`, `get_register` or `get_pc` on a CPU that has not been reset: raised by Machine/PublicOps.lean (R37, D18).
  Safe. -/
  | cpuNotReset
  /-- `create_memory` could not allocate the store (R38, U13): raised by `createMemory`. Safe. -/
  | allocationFailed
  /-- `create_memory` with block size 0, where the spec's remainders have no meaning: raised by `createMemory`. Safe. -/
  | zeroBlockSize
  /-- `mem_write` with fewer bytes than its length says (R44 names `bytes[0..len-1]`): raised by `memWrite`. Safe. -/
  | dataShorterThanLength
  deriving DecidableEq, Repr

/-- The store (R38, R39): its size, its block size, and its bytes in one canonical form (`Memory.wf`, Memory.lean). -/
structure Memory where
  /-- `MEM_SIZE`: the bytes 0..size-1 exist. -/
  size      : Nat
  /-- `BLOCK_SIZE`. -/
  blockSize : Nat
  /-- (address, byte) pairs; an address that is not listed reads as `Memory.background`. -/
  cells     : List Host.Cell
  deriving DecidableEq, Repr

/-- The complete state of one CPU+Memory instance (R30). -/
structure State where
  /-- The general registers (R16). Index 0 is read and written through `readReg` and `writeReg` only, which keep it 0. -/
  regs   : Vector Word 32
  /-- The address of the instruction the next step fetches (R21). -/
  pc     : Word
  /-- The address of the instruction after it (R22). -/
  npc    : Word
  /-- HI (R24). -/
  hi     : Word
  /-- LO (R24). -/
  lo     : Word
  /-- The fetched raw instruction word (R25). -/
  ir     : Word
  /-- The load memory data staging register (R26). -/
  lmd    : Word
  /-- The one Memory the CPU owns (R40, R56). -/
  mem    : Memory
  /-- The two Boolean parameters of R9; no step writes them. -/
  params : Params
  deriving DecidableEq, Repr

/-- A store as `create_memory` leaves it: every byte 0 (R38). -/
def Memory.created (size blockSize : Nat) : Memory := { size := size, blockSize := blockSize, cells := [] }

/-- The machine right after reset (R36, R173), bound to a newly created store: every register 0, `pc` and `npc` both
0. `lmd` has no reset value in the spec and is 0 here (DESIGN CHOICE, log entry 2); the size of the store is open in
the spec (DESIGN CHOICE, log entry 1). -/
def State.reset : State where
  regs   := Vector.replicate 32 0#32
  pc     := 0#32
  npc    := 0#32
  hi     := 0#32
  lo     := 0#32
  ir     := 0#32
  lmd    := 0#32
  mem    := Memory.created Config.resetMemSize Config.cpuBlockSize
  params := Params.decided

end Sys2Proof.Machine
end

