-- ==== Sys2Proof/Machine/Memory.lean ====
section
/-!
DEFINITION. The store's bytes, the raw block-checked operations (20_memory.md R43, R44) and the CPU's access
primitives (R49, R50).
-/

namespace Sys2Proof.Machine

/-! ## Single bytes -/

/-- What an address that is not listed reads as: 0, the value of a byte nothing has written (R38, R46). -/
def Memory.background : Byte := 0#8

/-- The byte of the first pair with this address, or the background. -/
def lookupCell : List Host.Cell → Nat → Byte
  | [], _ => Memory.background
  | (c, b) :: rest, a => if c = a then b else lookupCell rest a

/-- Put a pair in front of the first pair with a higher address. -/
def insertCell (a : Nat) (b : Byte) : List Host.Cell → List Host.Cell
  | [] => [(a, b)]
  | (c, d) :: rest => if a < c then (a, b) :: (c, d) :: rest else (c, d) :: insertCell a b rest

/-- The pairs after a write: the old pair of the address goes, and a new one comes unless it would say the background. -/
def writeCell (cells : List Host.Cell) (a : Nat) (b : Byte) : List Host.Cell :=
  let others := cells.filter (fun c => c.1 != a)
  if b = Memory.background then others else insertCell a b others

/-- The byte at an address. -/
def Memory.byteAt (m : Memory) (a : Nat) : Byte := lookupCell m.cells a

/-- The store with one byte written. -/
def Memory.setByte (m : Memory) (a : Nat) (b : Byte) : Memory := { m with cells := writeCell m.cells a b }

/-- `len` bytes from an address on. -/
def Memory.bytesAt (m : Memory) : Nat → Nat → List Byte
  | _, 0 => []
  | a, len + 1 => m.byteAt a :: m.bytesAt (a + 1) len

/-- The store with consecutive bytes written. -/
def Memory.setBytes (m : Memory) : Nat → List Byte → Memory
  | _, [] => m
  | a, b :: rest => (m.setByte a b).setBytes (a + 1) rest

/-- The canonical form: addresses strictly rising, and no pair that says the background. -/
abbrev Memory.wf (m : Memory) : Prop :=
  m.cells.Pairwise (fun c d => c.1 < d.1) ∧ ∀ c ∈ m.cells, c.2 ≠ Memory.background

/-- Only bytes that exist are listed (R40). -/
abbrev Memory.inBounds (m : Memory) : Prop := ∀ c ∈ m.cells, c.1 < m.size

/-! ## The raw block-checked operations -/

/-- The two checks of every block access, alignment first (R43, D8), in unbounded integers (D7). -/
def Memory.checkSpan (m : Memory) (addr len : Nat) : Except Fault Unit :=
  if addr % m.blockSize ≠ 0 ∨ (addr + len) % m.blockSize ≠ 0 then .error .invalidAlignment
  else if addr + len > m.size then .error .invalidAddress
  else .ok ()

/-- `BlockRead(addr, len)` (R43). -/
def Memory.blockRead (m : Memory) (addr len : Nat) : Except Fault (List Byte) :=
  match m.checkSpan addr len with
  | .error e => .error e
  | .ok _ => .ok (m.bytesAt addr len)

/-- `BlockWrite(addr, len, bytes)` with `len` the number of bytes (R44): both checks, then every byte. -/
def Memory.blockWrite (m : Memory) (addr : Nat) (bytes : List Byte) : Except Fault Memory :=
  match m.checkSpan addr bytes.length with
  | .error e => .error e
  | .ok _ => .ok (m.setBytes addr bytes)

/-! ## The CPU's access primitives -/

/-- The address of the naturally aligned word that contains an address (R49). -/
def alignedBase (addr : Word) : Nat := addr.toNat - addr.toNat % 4

/-- The place of an address in its aligned word: `k` of R49. -/
def byteOffset (addr : Word) : Nat := addr.toNat % 4

/-- `MemRead(addr, n)` (R49): the aligned word that contains the access is read, and the `n` addressed bytes of it are
taken, big-endian, zero-extended. -/
def Memory.memRead (m : Memory) (addr : Word) (n : Nat) : Except Fault Word :=
  match m.blockRead (alignedBase addr) 4 with
  | .error e => .error e
  | .ok bytes => .ok (beWord ((bytes.drop (byteOffset addr)).take n))

/-- The bytes of a word with those from place `k` on replaced (R50). -/
def spliceBytes (bytes : List Byte) (k : Nat) (new : List Byte) : List Byte :=
  bytes.take k ++ new ++ bytes.drop (k + new.length)

/-- `MemWrite(addr, n, v)` (R50): read the aligned word, replace the `n` addressed bytes by the low `n` bytes of `v`,
most significant first, and write the word back. -/
def Memory.memWrite (m : Memory) (addr : Word) (n : Nat) (v : Word) : Except Fault Memory :=
  match m.blockRead (alignedBase addr) 4 with
  | .error e => .error e
  | .ok bytes => m.blockWrite (alignedBase addr) (spliceBytes bytes (byteOffset addr) (beBytes n v))

end Sys2Proof.Machine
end

