-- ==== Sys2Proof/Machine/Operands.lean ====
section
/-!
DEFINITION. Every operand form of the instruction set: register access (10_state.md R17, R18), the extension of
immediates (30_encoding.md R70), shift amounts (R73), branch and jump targets (R71, R72).
-/

namespace Sys2Proof.Machine

/-! ## Registers -/

/-- `x[r]` (R13, R17): register 0 reads as 0. -/
def State.readReg (s : State) (r : RegIdx) : Word := if r = 0#5 then 0#32 else s.regs[r.toNat]

/-- `x[r] <- v` (R13, R17): a write to register 0 is discarded. -/
def State.writeReg (s : State) (r : RegIdx) (v : Word) : State :=
  if r = 0#5 then s else { s with regs := s.regs.set r.toNat v }

/-- The link register r31 (R19). -/
def linkReg : RegIdx := 31#5

/-! ## Immediates -/

/-- `sext_16(imm)` (R13, R70). -/
def sext16 (imm : Imm16) : Word := imm.signExtend 32

/-- `zext_16(imm)` (R13, R70). -/
def zext16 (imm : Imm16) : Word := imm.setWidth 32

/-- `sext_8` of the low byte of a word (R13), for LB (R146). -/
def sext8 (w : Word) : Word := (w.setWidth 8).signExtend 32

/-- `zext_8` of the low byte of a word (R13), for LBU (R147). -/
def zext8 (w : Word) : Word := (w.setWidth 8).setWidth 32

/-! ## Shift amounts -/

/-- The immediate shift amount as a word: `zext_5(shamt)` (R73, R87). -/
def shamtWord (shamt : Shamt) : Word := shamt.setWidth 32

/-- The shift amount the ALU uses: the low five bits of its A input (R73, R89, D13). -/
def shiftAmount (a : Word) : Nat := (a.extractLsb' 0 5).toNat

/-- The fixed shift amount of LUI (R73). -/
def luiAmount : Word := 16#32

/-! ## Targets -/

/-- The target of a taken branch: `old_NPC + (sext_16(imm) << 2)` (R71). -/
def branchTarget (oldNpc : Word) (off : Imm16) : Word := oldNpc + (sext16 off <<< 2)

/-- The region bits of a J-type instruction, from its own address: `pc & 0xF0000000` (R72, R87). -/
def jumpRegion (pc : Word) : Word := pc &&& 0xF0000000#32

/-- `zext_26(target) << 2` (R72, R87). -/
def jumpOffset (target : Target26) : Word := target.setWidth 32 <<< 2

/-- The target of J and JAL (R72). -/
def jumpTarget (pc : Word) (target : Target26) : Word := jumpRegion pc ||| jumpOffset target

end Sys2Proof.Machine
end

