-- ==== Sys2Proof/Machine/Flags.lean ====
section
/-!
DEFINITION. The block has no status flags and no condition codes (10_state.md R28). What stands in their place:
overflow detection (40_pipeline.md R90), the 0/1 results of the set-less-than family (R89), the branch conditions on
the CMP result (R94), and the double-word results of multiply and divide (R89).
-/

namespace Sys2Proof.Machine

/-! ## Signed overflow (R90) -/

/-- The integer fits in 32-bit two's complement: it lies in [-2^31, 2^31 - 1]. -/
def fitsS32 (t : Int) : Bool := -2147483648 ≤ t && t ≤ 2147483647

/-- SADD (R89, R90): the wrapped sum; with the check on, `ArithmeticOverflow` when the exact signed sum does not fit. -/
def sadd (check : Bool) (a b : Word) : Except Fault Word :=
  if check && !fitsS32 (a.toInt + b.toInt) then .error .arithmeticOverflow else .ok (a + b)

/-- SSUB (R89, R90): the wrapped difference; `ArithmeticOverflow` when the exact signed difference does not fit. -/
def ssub (a b : Word) : Except Fault Word :=
  if !fitsS32 (a.toInt - b.toInt) then .error .arithmeticOverflow else .ok (a - b)

/-! ## Set less than (R89) -/

/-- The 0/1 word of a comparison. -/
def boolWord (b : Bool) : Word := if b then 1#32 else 0#32

/-- SLTS: signed comparison. -/
def slts (a b : Word) : Word := boolWord (decide (a.toInt < b.toInt))

/-- SLTU: unsigned comparison of the operands (C4). -/
def sltu (a b : Word) : Word := boolWord (decide (a.toNat < b.toNat))

/-! ## Branch conditions on the CMP result (R94) -/

/-- CMP: the wrapped difference (R89). -/
def cmpDiff (a b : Word) : Word := a - b

/-- BEQ. -/
def condEq (out : Word) : Bool := out == 0#32
/-- BNE. -/
def condNe (out : Word) : Bool := out != 0#32
/-- BGEZ, BGEZAL: signed. -/
def condGez (out : Word) : Bool := 0 ≤ out.toInt
/-- BGTZ: signed. -/
def condGtz (out : Word) : Bool := 0 < out.toInt
/-- BLEZ: signed. -/
def condLez (out : Word) : Bool := out.toInt ≤ 0
/-- BLTZ, BLTZAL: signed. -/
def condLtz (out : Word) : Bool := out.toInt < 0

/-! ## Shifts (R89): the value is B, the amount is A[4:0] -/

/-- SHL. -/
def shl (a b : Word) : Word := b <<< shiftAmount a
/-- SHRL. -/
def shrl (a b : Word) : Word := b >>> shiftAmount a
/-- SHRA: bit 31 is replicated. -/
def shra (a b : Word) : Word := b.sshiftRight (shiftAmount a)

/-! ## Multiply and divide (R89): pairs (hi, lo) -/

/-- The two halves of a 64-bit value. -/
def hiLo (p : BitVec 64) : Word × Word := (p.extractLsb' 32 32, p.extractLsb' 0 32)

/-- MULS: the exact signed product as a 64-bit two's-complement value. -/
def muls (a b : Word) : Word × Word := hiLo (BitVec.ofInt 64 (a.toInt * b.toInt))

/-- MULU: the exact unsigned product. -/
def mulu (a b : Word) : Word × Word := hiLo (BitVec.ofNat 64 (a.toNat * b.toNat))

/-- DIVS: quotient rounded toward zero in `lo`, remainder with the dividend's sign in `hi`, each reduced modulo 2^32
(so -2^31 / -1 gives `lo = 0x80000000`, `hi = 0`: D15); with divisor 0 the open function `DIV0_RESULT` (R91). -/
def divs (a b oldHi oldLo : Word) : Word × Word :=
  if b = 0#32 then Config.div0Result .div a oldHi oldLo
  else (BitVec.ofInt 32 (a.toInt.tmod b.toInt), BitVec.ofInt 32 (a.toInt.tdiv b.toInt))

/-- DIVU: unsigned quotient in `lo`, remainder in `hi`; with divisor 0 the open function `DIV0_RESULT` (R91). -/
def divu (a b oldHi oldLo : Word) : Word × Word :=
  if b = 0#32 then Config.div0Result .divu a oldHi oldLo
  else (BitVec.ofNat 32 (a.toNat % b.toNat), BitVec.ofNat 32 (a.toNat / b.toNat))

end Sys2Proof.Machine
end

