-- ==== Sys2Proof/Machine/Ops.lean ====
section
/-!
DEFINITION. The named operations every meaning is built from: fetch (40_pipeline.md R85), failing (R101, R102,
60_exceptions.md R154 to R161), write-back with the sequential PC update (R95, R96), branches, jumps and the link
(R97 to R100), HI/LO write-back (R95), loads and stores (44_load_store.md).
-/

namespace Sys2Proof.Machine

/-- What a step or a meaning answers. -/
abbrev Answer := Host.Outcome State Fault Refusal

/-! ## Failing

This block takes no trap: an exception saves nothing, changes no mode, transfers no control and has no handler and no
return instruction (R154, R160, R161). Taking one is `raise`: the step ends there and answers the error kind. What the
failed step leaves behind is `afterFailedStep`; the host may step again, which retries the same instruction. -/

/-- `raise E` (R13, R101): the step ends with error kind `E`, and no later stage runs. -/
def raise (e : Fault) : Answer := .fault e

/-- Answer a state, or raise. -/
def answer : Except Fault State → Answer
  | .ok t => .next t
  | .error e => raise e

/-! ## Fetch -/

/-- IF (R52, R85): the big-endian word at `pc`, read by the raw block operation. -/
def fetch (s : State) : Except Fault Word :=
  match s.mem.blockRead s.pc.toNat 4 with
  | .error e => .error e
  | .ok bytes => .ok (beWord bytes)

/-- The state after a step that failed (R85, R102): only `ir` may differ, and only if the fetch succeeded (D29). -/
def afterFailedStep (s : State) : State :=
  match fetch s with
  | .ok w => { s with ir := w }
  | .error _ => s

/-! ## The PC protocol -/

/-- The sequential PC update `next_seq` (R96, R104). -/
def State.nextSeq (s : State) : State := { s with pc := s.npc, npc := s.npc + 4#32 }

/-- The PC update of a branch or jump (R97, R98): `pc` moves to `npc`, and `npc` to the given address. -/
def State.redirect (s : State) (target : Word) : State := { s with pc := s.npc, npc := target }

/-- Link (R99): `x[31] <- old_NPC + 4`. -/
def State.link (s : State) : State := s.writeReg linkReg (s.npc + 4#32)

/-- The address a branch leaves in `npc` (R97). -/
def branchNpc (taken : Bool) (oldNpc : Word) (off : Imm16) : Word :=
  if taken then branchTarget oldNpc off else oldNpc + 4#32

/-- A branch that does not link (R97, R100). -/
def branch (taken : Bool) (off : Imm16) (s : State) : Answer := .next (s.redirect (branchNpc taken s.npc off))

/-- A branch that links when taken, and also when not taken if `LINK_ON_NOT_TAKEN` (R99, R100). The condition was
computed before the link. -/
def branchLink (taken : Bool) (off : Imm16) (s : State) : Answer :=
  let linked := if taken || s.params.linkOnNotTaken then s.link else s
  .next (linked.redirect (branchNpc taken s.npc off))

/-! ## Write-back -/

/-- Write a result to a general register and go on (R95, R96). -/
def finish (rd : RegIdx) (v : Word) (s : State) : Answer := .next ((s.writeReg rd v).nextSeq)

/-- Write a result that may have failed. -/
def finishChecked (rd : RegIdx) (v : Except Fault Word) (s : State) : Answer :=
  match v with
  | .error e => raise e
  | .ok w => finish rd w s

/-- `HI <- hi; LO <- lo` and go on: no general register is written (R95). -/
def finishHiLo (hl : Word × Word) (s : State) : Answer := .next ({ s with hi := hl.1, lo := hl.2 }.nextSeq)

/-! ## Loads and stores -/

/-- The effective address (R145): base plus sign-extended offset, modulo 2^32; with `EA_OVERFLOW_CHECK` the signed sum
must fit (R90). -/
def effectiveAddress (rs : RegIdx) (imm : Imm16) (s : State) : Except Fault Word :=
  sadd s.params.eaOverflowCheck (s.readReg rs) (sext16 imm)

/-- The instruction-mandated alignment (R51), checked before any memory access. -/
def checkAligned (ea : Word) (alignment : Nat) : Except Fault Unit :=
  if ea.toNat % alignment ≠ 0 then .error .invalidAlignment else .ok ()

/-- A load (R93, R95): EA, alignment, memory into `lmd`, `lmd` into `rt`, sequential PC update. `value` reads memory at
the EA and makes the word that `lmd` receives. -/
def load (rt rs : RegIdx) (imm : Imm16) (alignment : Nat) (value : Word → Except Fault Word) (s : State) : Answer :=
  match effectiveAddress rs imm s with
  | .error e => raise e
  | .ok ea =>
    match checkAligned ea alignment with
    | .error e => raise e
    | .ok _ =>
      match value ea with
      | .error e => raise e
      | .ok w =>
        let staged := { s with lmd := w }
        finish rt staged.lmd staged

/-- A store of the low `n` bytes of a word (R93): EA, alignment `n`, memory, sequential PC update, no register. -/
def store (rs : RegIdx) (imm : Imm16) (n : Nat) (v : Word) (s : State) : Answer :=
  match effectiveAddress rs imm s with
  | .error e => raise e
  | .ok ea =>
    match checkAligned ea n with
    | .error e => raise e
    | .ok _ =>
      match s.mem.memWrite ea n v with
      | .error e => raise e
      | .ok m => .next ({ s with mem := m }.nextSeq)

/-- The LWL merge (R149): the bytes from place `k` to the end of the aligned word go to the most significant end, and
the low `k` bytes of the register stay. -/
def mergeLeft (k : Nat) (w old : Word) : Word := (w <<< (8 * k)) ||| (old &&& ((1#32 <<< (8 * k)) - 1#32))

/-- The LWR merge (R150): the bytes up to place `k` go to the least significant end, and the high `3 - k` bytes of the
register stay. -/
def mergeRight (k : Nat) (w old : Word) : Word :=
  (w >>> (8 * (3 - k))) ||| (old &&& ~~~(0xFFFFFFFF#32 >>> (8 * (3 - k))))

/-- `MemRead(EA - k, 4)`: the aligned word that contains the effective address (R149, R150). -/
def Memory.readContaining (m : Memory) (ea : Word) : Except Fault Word := m.memRead (ea - BitVec.ofNat 32 (byteOffset ea)) 4

end Sys2Proof.Machine
end

