-- ==== Sys2Proof/Machine/Arithmetic.lean ====
section
/-!
DEFINITION. The meanings of 41_arithmetic.md: ADD ADDU SUB SUBU ADDI ADDIU MULT MULTU DIV DIVU MFHI MFLO.
Each starts after IF and ID (R104).
-/

namespace Sys2Proof.Machine

/-- R105: signed add, failing on overflow whether or not `rd` is 0. -/
def execAdd (rd rs rt : RegIdx) (s : State) : Answer :=
  finishChecked rd (sadd true (s.readReg rs) (s.readReg rt)) s

/-- R106: wrapping add. -/
def execAddu (rd rs rt : RegIdx) (s : State) : Answer :=
  finish rd (s.readReg rs + s.readReg rt) s

/-- R107: signed subtract, failing on overflow. -/
def execSub (rd rs rt : RegIdx) (s : State) : Answer :=
  finishChecked rd (ssub (s.readReg rs) (s.readReg rt)) s

/-- R108: wrapping subtract. -/
def execSubu (rd rs rt : RegIdx) (s : State) : Answer :=
  finish rd (s.readReg rs - s.readReg rt) s

/-- R109: signed add of a sign-extended immediate, failing on overflow. -/
def execAddi (rt rs : RegIdx) (imm : Imm16) (s : State) : Answer :=
  finishChecked rt (sadd true (s.readReg rs) (sext16 imm)) s

/-- R110: wrapping add of a sign-extended immediate. -/
def execAddiu (rt rs : RegIdx) (imm : Imm16) (s : State) : Answer :=
  finish rt (s.readReg rs + sext16 imm) s

/-- R111: signed product into HI and LO. -/
def execMult (rs rt : RegIdx) (s : State) : Answer :=
  finishHiLo (muls (s.readReg rs) (s.readReg rt)) s

/-- R112: unsigned product into HI and LO. -/
def execMultu (rs rt : RegIdx) (s : State) : Answer :=
  finishHiLo (mulu (s.readReg rs) (s.readReg rt)) s

/-- R113: signed quotient into LO, remainder into HI; a zero divisor does not fail. -/
def execDiv (rs rt : RegIdx) (s : State) : Answer :=
  finishHiLo (divs (s.readReg rs) (s.readReg rt) s.hi s.lo) s

/-- R114: unsigned quotient into LO, remainder into HI; a zero divisor does not fail. -/
def execDivu (rs rt : RegIdx) (s : State) : Answer :=
  finishHiLo (divu (s.readReg rs) (s.readReg rt) s.hi s.lo) s

/-- R115: move from HI. -/
def execMfhi (rd : RegIdx) (s : State) : Answer := finish rd s.hi s

/-- R116: move from LO. -/
def execMflo (rd : RegIdx) (s : State) : Answer := finish rd s.lo s

end Sys2Proof.Machine
end

