-- ==== Sys2Proof/Machine/Control.lean ====
section
/-!
DEFINITION. The meanings of 43_branch_jump.md: BEQ BNE BLEZ BGTZ BLTZ BGEZ BLTZAL BGEZAL J JAL JR. Each moves `pc` to
`npc` and leaves the target or the fall-through in `npc`, which makes the one delay slot (R133). No target is checked.
-/

namespace Sys2Proof.Machine

/-- R134. -/
def execBeq (rs rt : RegIdx) (off : Imm16) (s : State) : Answer :=
  branch (condEq (cmpDiff (s.readReg rs) (s.readReg rt))) off s

/-- R135. -/
def execBne (rs rt : RegIdx) (off : Imm16) (s : State) : Answer :=
  branch (condNe (cmpDiff (s.readReg rs) (s.readReg rt))) off s

/-- R136: B is `x[0]` (D22); the `rt` field is not read (D4). -/
def execBlez (rs : RegIdx) (off : Imm16) (s : State) : Answer :=
  branch (condLez (cmpDiff (s.readReg rs) (s.readReg 0#5))) off s

/-- R137: B is `x[0]` (D22); the `rt` field is not read (D4). -/
def execBgtz (rs : RegIdx) (off : Imm16) (s : State) : Answer :=
  branch (condGtz (cmpDiff (s.readReg rs) (s.readReg 0#5))) off s

/-- R138. -/
def execBltz (rs : RegIdx) (off : Imm16) (s : State) : Answer :=
  branch (condLtz (cmpDiff (s.readReg rs) (s.readReg 0#5))) off s

/-- R139. -/
def execBgez (rs : RegIdx) (off : Imm16) (s : State) : Answer :=
  branch (condGez (cmpDiff (s.readReg rs) (s.readReg 0#5))) off s

/-- R140: the condition reads `x[rs]` before the link. -/
def execBltzal (rs : RegIdx) (off : Imm16) (s : State) : Answer :=
  branchLink (condLtz (cmpDiff (s.readReg rs) (s.readReg 0#5))) off s

/-- R141: the condition reads `x[rs]` before the link. -/
def execBgezal (rs : RegIdx) (off : Imm16) (s : State) : Answer :=
  branchLink (condGez (cmpDiff (s.readReg rs) (s.readReg 0#5))) off s

/-- R142: the region bits come from the address of the J itself. -/
def execJ (target : Target26) (s : State) : Answer := .next (s.redirect (jumpTarget s.pc target))

/-- R143: links first. -/
def execJal (target : Target26) (s : State) : Answer := .next (s.link.redirect (jumpTarget s.pc target))

/-- R144: the target is the SADD of `x[rs]` and `x[rt]` (D5), checked for overflow only with `EA_OVERFLOW_CHECK`. -/
def execJr (rs rt : RegIdx) (s : State) : Answer :=
  match sadd s.params.eaOverflowCheck (s.readReg rs) (s.readReg rt) with
  | .error e => raise e
  | .ok t => .next (s.redirect t)

end Sys2Proof.Machine
end

