-- ==== Sys2Proof/Machine/LoadStore.lean ====
section
/-!
DEFINITION. The meanings of 44_load_store.md: LB LBU LW LWL LWR SB SH SW. One addressing mode (R145); the required
alignments are those of 20_memory.md R51 (1 where there is none).
-/

namespace Sys2Proof.Machine

/-- R146: sign-extended byte. -/
def execLb (rt rs : RegIdx) (imm : Imm16) (s : State) : Answer :=
  load rt rs imm 1 (fun ea => (s.mem.memRead ea 1).map sext8) s

/-- R147: zero-extended byte. -/
def execLbu (rt rs : RegIdx) (imm : Imm16) (s : State) : Answer :=
  load rt rs imm 1 (fun ea => (s.mem.memRead ea 1).map zext8) s

/-- R148. -/
def execLw (rt rs : RegIdx) (imm : Imm16) (s : State) : Answer :=
  load rt rs imm 4 (fun ea => s.mem.memRead ea 4) s

/-- R149: never misaligned. -/
def execLwl (rt rs : RegIdx) (imm : Imm16) (s : State) : Answer :=
  load rt rs imm 1 (fun ea => (s.mem.readContaining ea).map (fun w => mergeLeft (byteOffset ea) w (s.readReg rt))) s

/-- R150: never misaligned. -/
def execLwr (rt rs : RegIdx) (imm : Imm16) (s : State) : Answer :=
  load rt rs imm 1 (fun ea => (s.mem.readContaining ea).map (fun w => mergeRight (byteOffset ea) w (s.readReg rt))) s

/-- R151: the low byte of `x[rt]`. -/
def execSb (rt rs : RegIdx) (imm : Imm16) (s : State) : Answer := store rs imm 1 (s.readReg rt) s

/-- R152: the low half of `x[rt]`. -/
def execSh (rt rs : RegIdx) (imm : Imm16) (s : State) : Answer := store rs imm 2 (s.readReg rt) s

/-- R153. -/
def execSw (rt rs : RegIdx) (imm : Imm16) (s : State) : Answer := store rs imm 4 (s.readReg rt) s

end Sys2Proof.Machine
end

