-- ==== Sys2Proof/Machine/Logical.lean ====
section
/-!
DEFINITION. The meanings of 42_logical_shift_compare.md: AND OR XOR ANDI ORI XORI LUI SLL SRL SRA SLLV SRLV SLT SLTU
SLTI SLTIU. None of them can fail.
-/

namespace Sys2Proof.Machine

/-- R117. -/
def execAnd (rd rs rt : RegIdx) (s : State) : Answer := finish rd (s.readReg rs &&& s.readReg rt) s

/-- R118. -/
def execOr (rd rs rt : RegIdx) (s : State) : Answer := finish rd (s.readReg rs ||| s.readReg rt) s

/-- R119. -/
def execXor (rd rs rt : RegIdx) (s : State) : Answer := finish rd (s.readReg rs ^^^ s.readReg rt) s

/-- R120: the immediate is zero-extended. -/
def execAndi (rt rs : RegIdx) (imm : Imm16) (s : State) : Answer := finish rt (s.readReg rs &&& zext16 imm) s

/-- R121: the immediate is zero-extended. -/
def execOri (rt rs : RegIdx) (imm : Imm16) (s : State) : Answer := finish rt (s.readReg rs ||| zext16 imm) s

/-- R122: the immediate is zero-extended. -/
def execXori (rt rs : RegIdx) (imm : Imm16) (s : State) : Answer := finish rt (s.readReg rs ^^^ zext16 imm) s

/-- R123: the shared left shift with A forced to 16. -/
def execLui (rt : RegIdx) (imm : Imm16) (s : State) : Answer := finish rt (shl luiAmount (zext16 imm)) s

/-- R124; the all-zero word is the no-op (R81). -/
def execSll (rd rt : RegIdx) (shamt : Shamt) (s : State) : Answer := finish rd (shl (shamtWord shamt) (s.readReg rt)) s

/-- R125. -/
def execSrl (rd rt : RegIdx) (shamt : Shamt) (s : State) : Answer := finish rd (shrl (shamtWord shamt) (s.readReg rt)) s

/-- R126. -/
def execSra (rd rt : RegIdx) (shamt : Shamt) (s : State) : Answer := finish rd (shra (shamtWord shamt) (s.readReg rt)) s

/-- R127: only the low five bits of `x[rs]` count (D13). -/
def execSllv (rd rt rs : RegIdx) (s : State) : Answer := finish rd (shl (s.readReg rs) (s.readReg rt)) s

/-- R128: only the low five bits of `x[rs]` count (D13). -/
def execSrlv (rd rt rs : RegIdx) (s : State) : Answer := finish rd (shrl (s.readReg rs) (s.readReg rt)) s

/-- R129: signed. -/
def execSlt (rd rs rt : RegIdx) (s : State) : Answer := finish rd (slts (s.readReg rs) (s.readReg rt)) s

/-- R130: unsigned. -/
def execSltu (rd rs rt : RegIdx) (s : State) : Answer := finish rd (sltu (s.readReg rs) (s.readReg rt)) s

/-- R131: signed, against the sign-extended immediate. -/
def execSlti (rt rs : RegIdx) (imm : Imm16) (s : State) : Answer := finish rt (slts (s.readReg rs) (sext16 imm)) s

/-- R132: the immediate is sign-extended, then compared as unsigned. -/
def execSltiu (rt rs : RegIdx) (imm : Imm16) (s : State) : Answer := finish rt (sltu (s.readReg rs) (sext16 imm)) s

end Sys2Proof.Machine
end

