-- ==== Sys2Proof/Machine/Step.lean ====
section
/-!
DEFINITION. One step (40_pipeline.md R84): fetch, decode, and the instruction's own stages. Its definitions only call
those of the other files.
-/

namespace Sys2Proof.Machine

/-- One step. A CPU bound to a store whose block size is not 4 has no meaning (R48). IF (R85) may fail; then `ir`
receives the word; ID (R86) may fail; then the instruction runs. -/
def step (s : State) : Host.Outcome State Fault Refusal :=
  if s.mem.blockSize ≠ Config.cpuBlockSize then .refused .blockSizeNotFour
  else
    match fetch s with
    | .error e => raise e
    | .ok w =>
      match decode w with
      | .error _ => raise .invalidInstruction
      | .ok i => exec i { s with ir := w }

/-- The state with a table word stored big-endian at `pc`, where `step` fetches (log entry 10). `step` then runs it when
`pc` is word-aligned and `pc + 4` is within the store. Nothing but those four bytes changes. -/
def State.withFetchWord (s : State) (nbits w : Nat) : State :=
  { s with mem := s.mem.setBytes s.pc.toNat (tableWordBytes nbits w) }

end Sys2Proof.Machine
end

