-- ==== Sys2Proof/Machine/Pipeline.lean ====
section
/-!
DEFINITION. The stage rules of 40_pipeline.md (R84, R87 to R100) as one machine for all instructions: operand
selection, ALU dispatch, EX, MEM, WB and the PC update, each a table over the instructions. R104 says that every
instruction's own rule is the composition of these; `exec` (Dispatch.lean) is written from the instructions' own rules
and `runStages` from the stage rules, and that the two agree is an obligation.
-/

namespace Sys2Proof.Machine

/-! ## Register fetch (R87) -/

/-- ALU input A (R87). -/
def operandA (i : Instr) (s : State) : Word :=
  match i with
  | .sll _ _ shamt | .srl _ _ shamt | .sra _ _ shamt => shamtWord shamt
  | .mfhi _ => s.hi
  | .mflo _ => s.lo
  | .add _ rs _ | .addu _ rs _ | .sub _ rs _ | .subu _ rs _ | .and _ rs _ | .or _ rs _ | .xor _ rs _ | .slt _ rs _
  | .sltu _ rs _ | .sllv _ _ rs | .srlv _ _ rs | .mult rs _ | .multu rs _ | .div rs _ | .divu rs _ | .jr rs _ _ =>
    s.readReg rs
  | .beq rs _ _ | .bne rs _ _ | .blez rs _ _ | .bgtz rs _ _ | .bltz rs _ | .bgez rs _ | .bltzal rs _ | .bgezal rs _ =>
    s.readReg rs
  | .andi _ rs _ | .ori _ rs _ | .xori _ rs _ => s.readReg rs
  | .lui _ _ => luiAmount
  | .addi _ rs _ | .addiu _ rs _ | .slti _ rs _ | .sltiu _ rs _ | .lb _ rs _ | .lbu _ rs _ | .lw _ rs _ | .lwl _ rs _
  | .lwr _ rs _ | .sb _ rs _ | .sh _ rs _ | .sw _ rs _ => s.readReg rs
  | .j _ | .jal _ => jumpRegion s.pc

/-- ALU input B (R87). -/
def operandB (i : Instr) (s : State) : Word :=
  match i with
  | .sll _ rt _ | .srl _ rt _ | .sra _ rt _ => s.readReg rt
  | .mfhi _ | .mflo _ => s.readReg 0#5
  | .add _ _ rt | .addu _ _ rt | .sub _ _ rt | .subu _ _ rt | .and _ _ rt | .or _ _ rt | .xor _ _ rt | .slt _ _ rt
  | .sltu _ _ rt | .sllv _ rt _ | .srlv _ rt _ | .mult _ rt | .multu _ rt | .div _ rt | .divu _ rt | .jr _ rt _ =>
    s.readReg rt
  | .beq _ rt _ | .bne _ rt _ => s.readReg rt
  | .blez _ _ _ | .bgtz _ _ _ | .bltz _ _ | .bgez _ _ | .bltzal _ _ | .bgezal _ _ => s.readReg 0#5
  | .andi _ _ imm | .ori _ _ imm | .xori _ _ imm | .lui _ imm => zext16 imm
  | .addi _ _ imm | .addiu _ _ imm | .slti _ _ imm | .sltiu _ _ imm | .lb _ _ imm | .lbu _ _ imm | .lw _ _ imm
  | .lwl _ _ imm | .lwr _ _ imm | .sb _ _ imm | .sh _ _ imm | .sw _ _ imm => sext16 imm
  | .j target | .jal target => jumpOffset target

/-! ## ALU dispatch and EX (R88 to R92) -/

/-- The ALU operations (R88, D27). -/
inductive AluOp where
  | sadd | uadd | ssub | usub
  | and | or | xor
  | shl | shrl | shra
  | slts | sltu
  | muls | mulu | divs | divu
  | passa | cmp | jor
  deriving DecidableEq, Repr

/-- Each mnemonic selects one ALU operation (R88). -/
def aluOp : Instr → AluOp
  | .add .. | .addi .. | .lb .. | .lbu .. | .lw .. | .lwl .. | .lwr .. | .sb .. | .sh .. | .sw .. | .jr .. => .sadd
  | .addu .. | .addiu .. => .uadd
  | .sub .. => .ssub
  | .subu .. => .usub
  | .and .. | .andi .. => .and
  | .or .. | .ori .. => .or
  | .xor .. | .xori .. => .xor
  | .sll .. | .sllv .. | .lui .. => .shl
  | .srl .. | .srlv .. => .shrl
  | .sra .. => .shra
  | .slt .. | .slti .. => .slts
  | .sltu .. | .sltiu .. => .sltu
  | .mult .. => .muls
  | .multu .. => .mulu
  | .div .. => .divs
  | .divu .. => .divu
  | .mfhi _ | .mflo _ => .passa
  | .beq .. | .bne .. | .blez .. | .bgtz .. | .bltz .. | .bgez .. | .bltzal .. | .bgezal .. => .cmp
  | .j _ | .jal _ => .jor

/-- Whether the signed operation of this mnemonic reports overflow (R90). -/
def reportsOverflow (i : Instr) (p : Params) : Bool :=
  match i with
  | .add .. | .addi .. | .sub .. => true
  | .lb .. | .lbu .. | .lw .. | .lwl .. | .lwr .. | .sb .. | .sh .. | .sw .. | .jr .. => p.eaOverflowCheck
  | _ => false

/-- What the ALU delivers (R89). -/
structure AluResult where
  out : Word
  hi  : Word
  lo  : Word
  deriving DecidableEq, Repr

/-- A result of the operations that compute `out` alone. -/
def AluResult.ofOut (w : Word) : AluResult := { out := w, hi := 0#32, lo := 0#32 }

/-- A result of the operations that compute `(hi, lo)` alone. -/
def AluResult.ofHiLo (p : Word × Word) : AluResult := { out := 0#32, hi := p.1, lo := p.2 }

/-- The ALU (R89): a pure function of the operation, its inputs and, for a zero divisor, the old HI and LO. -/
def alu (op : AluOp) (check : Bool) (a b oldHi oldLo : Word) : Except Fault AluResult :=
  match op with
  | .sadd => (sadd check a b).map .ofOut
  | .uadd => .ok (.ofOut (a + b))
  | .ssub => (ssub a b).map .ofOut
  | .usub => .ok (.ofOut (a - b))
  | .and => .ok (.ofOut (a &&& b))
  | .or => .ok (.ofOut (a ||| b))
  | .xor => .ok (.ofOut (a ^^^ b))
  | .shl => .ok (.ofOut (shl a b))
  | .shrl => .ok (.ofOut (shrl a b))
  | .shra => .ok (.ofOut (shra a b))
  | .slts => .ok (.ofOut (slts a b))
  | .sltu => .ok (.ofOut (Machine.sltu a b))
  | .muls => .ok (.ofHiLo (muls a b))
  | .mulu => .ok (.ofHiLo (mulu a b))
  | .divs => .ok (.ofHiLo (divs a b oldHi oldLo))
  | .divu => .ok (.ofHiLo (Machine.divu a b oldHi oldLo))
  | .passa => .ok (.ofOut a)
  | .cmp => .ok (.ofOut (cmpDiff a b))
  | .jor => .ok (.ofOut (a ||| b))

/-- EX (R92). -/
def executeStage (i : Instr) (s : State) : Except Fault AluResult :=
  alu (aluOp i) (reportsOverflow i s.params) (operandA i s) (operandB i s) s.hi s.lo

/-! ## MEM (R93, R94, R97 to R100) -/

/-- The branch condition on the CMP result (R94); false for what is no branch. -/
def branchTaken (i : Instr) (out : Word) : Bool :=
  match i with
  | .beq .. => condEq out
  | .bne .. => condNe out
  | .bgez .. | .bgezal .. => condGez out
  | .bgtz .. => condGtz out
  | .blez .. => condLez out
  | .bltz .. | .bltzal .. => condLtz out
  | _ => false

/-- Whether the mnemonic links (R99): JAL always, BGEZAL and BLTZAL when taken or by the parameter. -/
def links (i : Instr) (out : Word) (p : Params) : Bool :=
  match i with
  | .jal _ => true
  | .bgezal .. | .bltzal .. => branchTaken i out || p.linkOnNotTaken
  | _ => false

/-- The branches and jumps, which have no WB stage (R84). -/
def isControl : Instr → Bool
  | .beq .. | .bne .. | .blez .. | .bgtz .. | .bltz .. | .bgez .. | .bltzal .. | .bgezal .. | .j _ | .jal _ | .jr .. => true
  | _ => false

/-- The instruction-mandated alignment of the effective address (R51); 1 where there is none. -/
def mandatedAlignment : Instr → Nat
  | .lw .. | .sw .. => 4
  | .sh .. => 2
  | _ => 1

/-- What a load puts into `lmd` (R146 to R150), by reading memory at the effective address. -/
def loadValue (i : Instr) (ea : Word) (s : State) : Except Fault Word :=
  match i with
  | .lb .. => (s.mem.memRead ea 1).map sext8
  | .lbu .. => (s.mem.memRead ea 1).map zext8
  | .lw .. => s.mem.memRead ea 4
  | .lwl rt _ _ => (s.mem.readContaining ea).map (fun w => mergeLeft (byteOffset ea) w (s.readReg rt))
  | .lwr rt _ _ => (s.mem.readContaining ea).map (fun w => mergeRight (byteOffset ea) w (s.readReg rt))
  | _ => .ok s.lmd

/-- The memory a store leaves (R151 to R153); that of the state for what is no store. -/
def storeMemory (i : Instr) (ea : Word) (s : State) : Except Fault Memory :=
  match i with
  | .sb rt _ _ => s.mem.memWrite ea 1 (s.readReg rt)
  | .sh rt _ _ => s.mem.memWrite ea 2 (s.readReg rt)
  | .sw rt _ _ => s.mem.memWrite ea 4 (s.readReg rt)
  | _ => .ok s.mem

/-- The data access of a load or store: alignment, then memory (R93). -/
def accessMemory (i : Instr) (ea : Word) (s : State) : Except Fault State :=
  match checkAligned ea (mandatedAlignment i) with
  | .error e => .error e
  | .ok _ =>
    match loadValue i ea s with
    | .error e => .error e
    | .ok w =>
      match storeMemory i ea s with
      | .error e => .error e
      | .ok m => .ok { s with lmd := w, mem := m }

/-- Where a branch or jump leaves `npc` (R97, R98). -/
def controlNpc (i : Instr) (out : Word) (s : State) : Word :=
  match i with
  | .beq _ _ off | .bne _ _ off | .blez _ _ off | .bgtz _ _ off | .bltz _ off | .bgez _ off | .bltzal _ off
  | .bgezal _ off => branchNpc (branchTaken i out) s.npc off
  | _ => out

/-- MEM (R93, R100): condition, link and PC update of a branch or jump; the access of a load or store; nothing else. -/
def memStage (i : Instr) (out : Word) (s : State) : Except Fault State :=
  if isControl i then
    let linked := if links i out s.params then s.link else s
    .ok (linked.redirect (controlNpc i out s))
  else
    match i with
    | .lb .. | .lbu .. | .lw .. | .lwl .. | .lwr .. | .sb .. | .sh .. | .sw .. => accessMemory i out s
    | _ => .ok s

/-! ## WB (R95) -/

/-- WB (R95). A write-back for a J-type instruction, which structurally has none, is `InternalError` (R155, R171); no
step asks for one. -/
def writeBack (i : Instr) (r : AluResult) (s : State) : Except Fault State :=
  match i with
  | .add rd _ _ | .addu rd _ _ | .sub rd _ _ | .subu rd _ _ | .and rd _ _ | .or rd _ _ | .xor rd _ _ | .slt rd _ _
  | .sltu rd _ _ | .sll rd _ _ | .srl rd _ _ | .sra rd _ _ | .sllv rd _ _ | .srlv rd _ _ | .mfhi rd | .mflo rd =>
    .ok (s.writeReg rd r.out)
  | .mult .. | .multu .. | .div .. | .divu .. => .ok { s with hi := r.hi, lo := r.lo }
  | .addi rt _ _ | .addiu rt _ _ | .slti rt _ _ | .sltiu rt _ _ | .andi rt _ _ | .ori rt _ _ | .xori rt _ _ | .lui rt _ =>
    .ok (s.writeReg rt r.out)
  | .lb rt _ _ | .lbu rt _ _ | .lw rt _ _ | .lwl rt _ _ | .lwr rt _ _ => .ok (s.writeReg rt s.lmd)
  | .sb .. | .sh .. | .sw .. => .ok s
  | .beq .. | .bne .. | .blez .. | .bgtz .. | .bltz .. | .bgez .. | .bltzal .. | .bgezal .. | .jr .. => .ok s
  | .j _ | .jal _ => .error .internalError

/-- The field accessor as the machine sees it: a field the structural type lacks is `InternalError` (R69). -/
def readField (i : Instr) (n : FieldName) : Except Fault Nat :=
  match i.field? n with
  | some v => .ok v
  | none => .error .internalError

/-! ## The stages in order (R84) -/

/-- EX, MEM, WB and the PC update of a decoded instruction (R84). Branches and jumps end after MEM. -/
def runStages (i : Instr) (s : State) : Answer :=
  match executeStage i s with
  | .error e => raise e
  | .ok r =>
    match memStage i r.out s with
    | .error e => raise e
    | .ok t =>
      if isControl i then .next t
      else
        match writeBack i r t with
        | .error e => raise e
        | .ok u => .next u.nextSeq

end Sys2Proof.Machine
end

