-- ==== Sys2Proof/Machine/PublicOps.lean ====
section
/-!
DEFINITION. The public operations of the block, its only interface to the host (60_exceptions.md R170), on a CPU that
may not have been reset yet.

The host calls one operation at a time, between steps (R158, R167): an operation is a function of the CPU before it.
-/

namespace Sys2Proof.Machine

/-- A CPU with the Memory it is bound to. -/
inductive Cpu where
  /-- Created and not yet reset: every register is undefined (R37, R176), so there is none to hold. -/
  | unreset (params : Params) (mem : Memory)
  /-- After the first `reset`. -/
  | ready (s : State)
  deriving DecidableEq, Repr

/-- What a call answers: no meaning (a refusal), or the CPU after the call and the result the host gets (R103). -/
abbrev Reply (α : Type) := Except Refusal (Cpu × Except Fault α)

/-- The memory the CPU owns. -/
def Cpu.memory : Cpu → Memory
  | .unreset _ m => m
  | .ready s => s.mem

/-- The parameters the CPU was created with (R9). -/
def Cpu.params : Cpu → Params
  | .unreset p _ => p
  | .ready s => s.params

/-- The CPU with its memory replaced. -/
def Cpu.withMemory (m : Memory) : Cpu → Cpu
  | .unreset p _ => .unreset p m
  | .ready s => .ready { s with mem := m }

/-- The numeric code of an error kind (R155; the codes are the spec's decision D17). -/
def errorCode : Fault → Nat
  | .invalidArgument => 1
  | .invalidInstruction => 2
  | .invalidAlignment => 3
  | .invalidAddress => 4
  | .arithmeticOverflow => 5
  | .accessViolation => 6
  | .internalError => 7

/-- The code of a result: 0 for success (R155). -/
def resultCode {α : Type} : Except Fault α → Nat
  | .ok _ => 0
  | .error e => errorCode e

/-! ## Creation -/

/-- `create_memory(size, block_size)` (R38): every byte 0, or a failure when the allocation is not possible, which is the
host environment's affair (U13). Block size 0 is refused (log entry 12). -/
def createMemory (canAllocate : Bool) (size blockSize : Nat) : Except Refusal Memory :=
  if blockSize = 0 then .error .zeroBlockSize
  else if canAllocate then .ok (Memory.created size blockSize)
  else .error .allocationFailed

/-- `create_cpu(memory)` (R37), with the parameters of R9. A store whose block size is not 4 is refused (R48). -/
def createCpu (params : Params) (m : Memory) : Except Refusal Cpu :=
  if m.blockSize = Config.cpuBlockSize then .ok (.unreset params m) else .error .blockSizeNotFour

/-! ## Reset -/

/-- Every register 0, memory and parameters kept, `lmd` left at a value the spec does not give (R36, R62, R173): it is the
argument `lmdDraw`, and nothing constrains it (U7, log entry 2). -/
def resetState (lmdDraw : Word) (params : Params) (m : Memory) : State where
  regs   := Vector.replicate 32 0#32
  pc     := 0#32
  npc    := 0#32
  hi     := 0#32
  lo     := 0#32
  ir     := 0#32
  lmd    := lmdDraw
  mem    := m
  params := params

/-- `reset(cpu)` (R173): cannot fail, before the first step as after any. -/
def resetCall (lmdDraw : Word) : Cpu → Cpu
  | .unreset p m => .ready (resetState lmdDraw p m)
  | .ready s => .ready (resetState lmdDraw s.params s.mem)

/-! ## Step -/

/-- `step(cpu)` (R84, R101 to R103): one instruction, or the first error kind raised with the state `afterFailedStep`.
Refused on a CPU that has not been reset (R37). -/
def stepCall : Cpu → Reply Unit
  | .unreset _ _ => .error .cpuNotReset
  | .ready s =>
    match step s with
    | .next t => .ok (.ready t, .ok ())
    | .fault e => .ok (.ready (afterFailedStep s), .error e)
    | .refused r => .error r

/-! ## Registers -/

/-- `get_register(cpu, index)` (R20, R32); refused on a CPU that has not been reset (R37). -/
def getRegister (index : Nat) : Cpu → Reply Word
  | .unreset _ _ => .error .cpuNotReset
  | .ready s =>
    if index < 32 then .ok (.ready s, .ok (s.readReg (BitVec.ofNat 5 index)))
    else .ok (.ready s, .error .invalidArgument)

/-- `set_register(cpu, index, value)` (R20, R33). On a CPU that has not been reset it changes nothing that anything can
read before `reset` zeroes it (log entry 7). -/
def setRegister (index : Nat) (value : Word) (c : Cpu) : Reply Unit :=
  if index < 32 then
    match c with
    | .unreset p m => .ok (.unreset p m, .ok ())
    | .ready s => .ok (.ready (s.writeReg (BitVec.ofNat 5 index) value), .ok ())
  else .ok (c, .error .invalidArgument)

/-- `get_pc(cpu)` (R34); refused on a CPU that has not been reset (R37). -/
def getPc : Cpu → Reply Word
  | .unreset _ _ => .error .cpuNotReset
  | .ready s => .ok (.ready s, .ok s.pc)

/-- `set_pc` on a state (R35): `npc` is resynchronised, and nothing is checked (D26). -/
def State.setPc (s : State) (value : Word) : State := { s with pc := value, npc := value + 4#32 }

/-- `set_pc(cpu, value)` (R35). -/
def setPc (value : Word) : Cpu → Reply Unit
  | .unreset p m => .ok (.unreset p m, .ok ())
  | .ready s => .ok (.ready (s.setPc value), .ok ())

/-! ## Memory -/

/-- `mem_read(memory, addr, len)`: `BlockRead`, independent of any CPU and of the block size (R47). -/
def memReadCall (addr : Word) (len : Nat) (c : Cpu) : Reply (List Byte) :=
  .ok (c, c.memory.blockRead addr.toNat len)

/-- `mem_write(memory, addr, len, bytes)`: `BlockWrite` of `bytes[0..len-1]` (R44, R47). Fewer bytes than `len` are
refused (log entry 12). -/
def memWriteCall (addr : Word) (len : Nat) (bytes : List Byte) (c : Cpu) : Reply Unit :=
  if bytes.length < len then .error .dataShorterThanLength
  else
    match c.memory.blockWrite addr.toNat (bytes.take len) with
    | .error e => .ok (c, .error e)
    | .ok m => .ok (c.withMemory m, .ok ())

/-! ## Operations without architectural effect -/

/-- `set_debug_level(cpu, level, sink)` (R172): a no-op. -/
def setDebugLevel (_level : Nat) (c : Cpu) : Cpu := c

/-! ## Runs -/

/-- A run (D31): `step` is called until a call fails, the end-of-run condition `END_OF_RUN` holds of the state, or the
budget is used up. The result is the last one, with the CPU after it. -/
def runUntil (endOfRun : State → Bool) : Nat → Cpu → Reply Unit
  | 0, c => .ok (c, .ok ())
  | n + 1, c =>
    match stepCall c with
    | .error r => .error r
    | .ok (d, .error e) => .ok (d, .error e)
    | .ok (d, .ok _) =>
      match d with
      | .unreset _ _ => .error .cpuNotReset
      | .ready t => if endOfRun t then .ok (d, .ok ()) else runUntil endOfRun n d

/-- D31's default: the run ends at the first failed step or after `budget` successful ones. -/
def runBudget (budget : Nat) (c : Cpu) : Reply Unit := runUntil (fun _ => false) budget c

end Sys2Proof.Machine
end

