-- ==== Sys2Proof/Safety.lean ====
section
/-!
DEFINITION. The terms that claims about the machine use: the invariant of its states, the classes of instructions, and
what it means that a state comes from another by one effect with everything else unchanged.
-/

namespace Sys2Proof.Machine

/-! ## Outcomes -/

/-- The next state of an outcome, if it has one. -/
def nextState? : Answer → Option State
  | .next t => some t
  | .fault _ => none
  | .refused _ => none

/-- The fault of an outcome, if it has one. -/
def faultOf? : Answer → Option Fault
  | .next _ => none
  | .fault e => some e
  | .refused _ => none

/-! ## The invariant -/

/-- What holds of every state of a CPU that was created, reset and run as the spec says: the cell of r0 holds 0 (R17),
the store is in canonical form and lists only bytes that exist (R40), and its block size is 4 (R48). -/
structure State.Inv (s : State) : Prop where
  zeroCell  : s.regs[0] = 0#32
  canonical : s.mem.wf
  exists_   : s.mem.inBounds
  block     : s.mem.blockSize = 4

/-! ## The host's calls -/

/-- `d` is the CPU after one operation of R170 on the CPU `c`, whatever the operation's result. Creating a CPU starts from
none; a call that is refused and `free_*` leave none. -/
def HostCall (c d : Cpu) : Prop :=
  (∃ lmdDraw, d = resetCall lmdDraw c) ∨ (∃ r, stepCall c = .ok (d, r)) ∨
    (∃ k r, getRegister k c = .ok (d, r)) ∨ (∃ k v r, setRegister k v c = .ok (d, r)) ∨
    (∃ r, getPc c = .ok (d, r)) ∨ (∃ v r, setPc v c = .ok (d, r)) ∨
    (∃ a n r, memReadCall a n c = .ok (d, r)) ∨ (∃ a n bytes r, memWriteCall a n bytes c = .ok (d, r)) ∨
    (∃ level, d = setDebugLevel level c)

/-! ## Classes of instructions -/

/-- The stores (R151 to R153): the only instructions that write memory. -/
def isStore : Instr → Bool
  | .sb .. | .sh .. | .sw .. => true
  | _ => false

/-- The loads (R146 to R150): the only instructions that write `lmd`. -/
def isLoad : Instr → Bool
  | .lb .. | .lbu .. | .lw .. | .lwl .. | .lwr .. => true
  | _ => false

/-- The instructions that write HI and LO (R24). -/
def writesHiLo : Instr → Bool
  | .mult .. | .multu .. | .div .. | .divu .. => true
  | _ => false

/-- The instructions that read HI or LO (R24): the moves, and the divisions, whose zero-divisor result may depend on
the old values (R9). -/
def readsHiLo : Instr → Bool
  | .mfhi .. | .mflo .. | .div .. | .divu .. => true
  | _ => false

/-- The general register an instruction may write (R95, R99). -/
def destReg : Instr → Option RegIdx
  | .sll rd _ _ | .srl rd _ _ | .sra rd _ _ | .sllv rd _ _ | .srlv rd _ _ | .mfhi rd | .mflo rd
  | .add rd _ _ | .addu rd _ _ | .sub rd _ _ | .subu rd _ _ | .and rd _ _ | .or rd _ _ | .xor rd _ _
  | .slt rd _ _ | .sltu rd _ _ => some rd
  | .addi rt _ _ | .addiu rt _ _ | .slti rt _ _ | .sltiu rt _ _ | .andi rt _ _ | .ori rt _ _ | .xori rt _ _
  | .lui rt _ | .lb rt _ _ | .lbu rt _ _ | .lw rt _ _ | .lwl rt _ _ | .lwr rt _ _ => some rt
  | .jal _ | .bltzal .. | .bgezal .. => some 31#5
  | .jr .. | .mult .. | .multu .. | .div .. | .divu .. | .bltz .. | .bgez .. | .j _ | .beq .. | .bne .. | .blez ..
  | .bgtz .. | .sb .. | .sh .. | .sw .. => none

/-! ## Arithmetic in integers and targets, as the rules write them -/

/-- The integer lies in [-2^31, 2^31 - 1] (R90). -/
def FitsSigned32 (t : Int) : Prop := -2 ^ 31 ≤ t ∧ t ≤ 2 ^ 31 - 1

/-- A branch offset in bytes: a signed count of words, times four (R71). -/
def offsetBytes (off : Imm16) : Word := BitVec.ofInt 32 (4 * off.toInt)

/-- The address a J-type instruction at `pc` names: four region bits, the word index, two zero bits (R72). -/
def regionTarget (pc : Word) (target : Target26) : Word := pc.extractLsb' 28 4 ++ target ++ 0#2

/-- The target of a branch that is taken or a jump (R71, R72, R94, R144); none for everything else. -/
def takenTarget (i : Instr) (s : State) : Option Word :=
  match i with
  | .beq rs rt off => if s.readReg rs = s.readReg rt then some (s.npc + offsetBytes off) else none
  | .bne rs rt off => if s.readReg rs ≠ s.readReg rt then some (s.npc + offsetBytes off) else none
  | .blez rs _ off => if (s.readReg rs).toInt ≤ 0 then some (s.npc + offsetBytes off) else none
  | .bgtz rs _ off => if 0 < (s.readReg rs).toInt then some (s.npc + offsetBytes off) else none
  | .bltz rs off | .bltzal rs off => if (s.readReg rs).toInt < 0 then some (s.npc + offsetBytes off) else none
  | .bgez rs off | .bgezal rs off => if 0 ≤ (s.readReg rs).toInt then some (s.npc + offsetBytes off) else none
  | .j target | .jal target => some (regionTarget s.pc target)
  | .jr rs rt _ => some (s.readReg rs + s.readReg rt)
  | _ => none

/-! ## Frames -/

/-- Every byte, the size and the block size of the store are the same. -/
def SameMemory (s t : State) : Prop :=
  t.mem.size = s.mem.size ∧ t.mem.blockSize = s.mem.blockSize ∧ ∀ a, t.mem.byteAt a = s.mem.byteAt a

/-- HI and LO are the same. -/
def SameHiLo (s t : State) : Prop := t.hi = s.hi ∧ t.lo = s.lo

/-- Every general register reads the same. -/
def SameRegs (s t : State) : Prop := ∀ r, t.readReg r = s.readReg r

/-- `t` reads as `s` after `x[rd] <- v`: r0 reads 0 whatever `rd` is (R17). -/
def WritesReg (s t : State) (rd : RegIdx) (v : Word) : Prop :=
  ∀ r, t.readReg r = if r = 0#5 then 0#32 else if r = rd then v else s.readReg r

/-- The sequential PC update (R96). -/
def AdvancesSeq (s t : State) : Prop := t.pc = s.npc ∧ t.npc = s.npc + 4#32

/-- The PC update of a branch or jump (R97, R98). -/
def RedirectsTo (s t : State) (target : Word) : Prop := t.pc = s.npc ∧ t.npc = target

/-- What no instruction writes after fetch: the instruction register and the parameters. -/
def SameFixed (s t : State) : Prop := t.ir = s.ir ∧ t.params = s.params

/-- `t` is `s` after `x[rd] <- v; next_seq` and nothing else. -/
def RegResult (s t : State) (rd : RegIdx) (v : Word) : Prop :=
  WritesReg s t rd v ∧ AdvancesSeq s t ∧ SameHiLo s t ∧ SameMemory s t ∧ SameFixed s t ∧ t.lmd = s.lmd

/-- `t` is `s` after a load of `v` into `rt`: as `RegResult`, with `lmd` holding `v` (R26). -/
def LoadResult (s t : State) (rt : RegIdx) (v : Word) : Prop :=
  WritesReg s t rt v ∧ AdvancesSeq s t ∧ SameHiLo s t ∧ SameMemory s t ∧ SameFixed s t ∧ t.lmd = v

/-- `t` is `s` after `HI <- h; LO <- l; next_seq` and nothing else. -/
def HiLoResult (s t : State) (h l : Word) : Prop :=
  t.hi = h ∧ t.lo = l ∧ SameRegs s t ∧ AdvancesSeq s t ∧ SameMemory s t ∧ SameFixed s t ∧ t.lmd = s.lmd

/-- `t` is `s` after a branch or jump without a link. -/
def JumpResult (s t : State) (target : Word) : Prop :=
  RedirectsTo s t target ∧ SameRegs s t ∧ SameHiLo s t ∧ SameMemory s t ∧ SameFixed s t ∧ t.lmd = s.lmd

/-- `t` is `s` after a branch or jump that wrote the link address `old_NPC + 4` into r31 (R99). -/
def LinkResult (s t : State) (target : Word) : Prop :=
  RedirectsTo s t target ∧ WritesReg s t 31#5 (s.npc + 4#32) ∧ SameHiLo s t ∧ SameMemory s t ∧ SameFixed s t
    ∧ t.lmd = s.lmd

/-- The byte of a word at a place counted from the most significant byte (R42). -/
def byteOf (w : Word) (j : Nat) : Byte := w.extractLsb' (24 - 8 * j) 8

/-- `t` is `s` after the low `n` bytes of `v` were stored big-endian at `ea`, and `next_seq`; every byte outside
[ea, ea + n) reads as before (R50). -/
def StoreResult (s t : State) (ea n : Nat) (v : Word) : Prop :=
  (∀ a, t.mem.byteAt a = if ea ≤ a ∧ a < ea + n then byteOf v (4 - n + (a - ea)) else s.mem.byteAt a)
    ∧ t.mem.size = s.mem.size ∧ t.mem.blockSize = s.mem.blockSize
    ∧ SameRegs s t ∧ AdvancesSeq s t ∧ SameHiLo s t ∧ SameFixed s t ∧ t.lmd = s.lmd

/-- The big-endian word of four consecutive bytes of the store (R42). -/
def Memory.wordAt (m : Memory) (a : Nat) : Word :=
  m.byteAt a ++ m.byteAt (a + 1) ++ m.byteAt (a + 2) ++ m.byteAt (a + 3)

/-- The instruction at `pc` is `i`: the store's block size is 4, `pc` is aligned and within the store, and the word there
decodes to `i`. -/
def State.At (s : State) (i : Instr) : Prop :=
  s.mem.blockSize = 4 ∧ s.pc.toNat % 4 = 0 ∧ s.pc.toNat + 4 ≤ s.mem.size ∧ decode (s.mem.wordAt s.pc.toNat) = .ok i

end Sys2Proof.Machine
end

