-- ==== Sys2Proof/Certificates/Slice0/Obligations.lean ====
section
/-!
DEFINITION. The statements for the provers, each from the numbered rules of spec/.

A statement about an instruction says that `exec` answers a next state under hypotheses on the state and the operands
alone, what that state holds, and (through `RegResult`, `LoadResult`, `HiLoResult`, `JumpResult`, `LinkResult` and
`StoreResult` of Safety.lean) that everything else is unchanged.
-/

open Sys2Proof
open Sys2Proof.Machine

/-! ## Registers and reset -/

/-- R17, R18: r0 reads 0 and discards writes; every other register holds what was written, and no other changes. -/
def Obligations.ZeroRegisterReadsZeroAndDropsWrites : Prop :=
  ∀ (s : State) (r q : RegIdx) (v : Word),
    s.readReg 0#5 = 0#32 ∧ s.writeReg 0#5 v = s ∧
      (r ≠ 0#5 → (s.writeReg r v).readReg q = if q = r then v else s.readReg q)

/-- R173: `reset` zeroes every register but `lmd`, which is left at an unspecified value (the argument `d`, whatever
it is: the spec's decision D21, log entry 2), keeps memory, cannot fail, on a CPU that was stepped as on a new one,
and twice is the same as once (R173 derives it). -/
def Obligations.ResetZeroesRegistersAndKeepsMemory : Prop :=
  ∀ (c : Cpu) (d d' : Word),
    (∃ t, resetCall d c = .ready t ∧ (∀ r, t.readReg r = 0#32) ∧ t.pc = 0#32 ∧ t.npc = 0#32 ∧ t.hi = 0#32 ∧
      t.lo = 0#32 ∧ t.ir = 0#32 ∧ t.lmd = d ∧ t.mem = c.memory) ∧
    resetCall d (resetCall d' c) = resetCall d c

/-- R36, R38: the model's reset state: every register the spec gives a reset value reads 0, and so does every byte of
the newly created store. Nothing is said of `lmd` and of the store's size (the model's choices, log entries 1, 2). -/
def Obligations.ResetStateReadsZero : Prop :=
  (∀ r, State.reset.readReg r = 0#32) ∧ State.reset.pc = 0#32 ∧ State.reset.npc = 0#32 ∧ State.reset.hi = 0#32 ∧
    State.reset.lo = 0#32 ∧ State.reset.ir = 0#32 ∧ (∀ a, State.reset.mem.byteAt a = 0#8)

/-- R175: with `pc = npc = 0`, the first step leaves `pc = 0`, and `npc` at 4 or where a branch or jump puts it; an
instruction that is no store is met again by the second step, which leaves `pc = 4`, `npc = 8` if it is no branch or
jump. (A store can overwrite the word at address 0, and then the second step meets what it wrote.) R175 derives this.
-/
def Obligations.AfterResetAddressZeroRunsTwice : Prop :=
  ∀ (s t : State) (i : Instr), s.At i → s.pc = 0#32 → s.npc = 0#32 → step s = .next t →
    t.pc = 0#32 ∧
      (isControl i = false → t.npc = 4#32) ∧
      (isControl i = true → t.npc = (takenTarget i s).getD 4#32) ∧
      (isStore i = false → t.At i ∧
        (isControl i = false → ∀ u, step t = .next u → u.pc = 4#32 ∧ u.npc = 8#32))

/-! ## The store -/

/-- R43, R44: alignment is checked first, then bounds, without wrap-around (the spec's decisions D8 and D7); a read
gives the bytes in order; a write changes exactly the named bytes, and a failed one has no result store at all. -/
def Obligations.BlockAccessChecksAlignmentThenBounds : Prop :=
  ∀ (m : Memory) (addr : Nat) (bytes : List Byte),
    ((addr % m.blockSize ≠ 0 ∨ (addr + bytes.length) % m.blockSize ≠ 0) →
      m.blockRead addr bytes.length = .error .invalidAlignment ∧ m.blockWrite addr bytes = .error .invalidAlignment) ∧
    (addr % m.blockSize = 0 → (addr + bytes.length) % m.blockSize = 0 → m.size < addr + bytes.length →
      m.blockRead addr bytes.length = .error .invalidAddress ∧ m.blockWrite addr bytes = .error .invalidAddress) ∧
    (addr % m.blockSize = 0 → (addr + bytes.length) % m.blockSize = 0 → addr + bytes.length ≤ m.size →
      ∃ out m', m.blockRead addr bytes.length = .ok out ∧ out.length = bytes.length ∧
        (∀ (k : Nat) (h : k < out.length), out[k] = m.byteAt (addr + k)) ∧
        m.blockWrite addr bytes = .ok m' ∧ m'.size = m.size ∧ m'.blockSize = m.blockSize ∧
        ∀ x, m'.byteAt x = if h : addr ≤ x ∧ x - addr < bytes.length then bytes[x - addr]'h.2 else m.byteAt x)

/-- R46: a read returns the bytes the last write to those addresses left there, a write disturbs no read elsewhere,
and before any write a read returns 0. -/
def Obligations.ReadReturnsTheLastWrittenBytes : Prop :=
  (∀ (m m' : Memory) (addr : Nat) (bytes : List Byte), m.blockWrite addr bytes = .ok m' →
    m'.blockRead addr bytes.length = .ok bytes ∧
    ∀ other len, other + len ≤ addr ∨ addr + bytes.length ≤ other → m'.blockRead other len = m.blockRead other len) ∧
  ∀ (size blockSize addr len : Nat) (out : List Byte),
    (Memory.created size blockSize).blockRead addr len = .ok out → ∀ b ∈ out, b = 0#8

/-- The model's canonical form of the store is unique: two stores in canonical form that read the same everywhere are
the same data (the model's own representation of R38's byte array). -/
def Obligations.CanonicalStoresWithEqualBytesAreEqual : Prop :=
  ∀ (m m' : Memory), m.wf → m'.wf → m.size = m'.size → m.blockSize = m'.blockSize →
    (∀ a, m.byteAt a = m'.byteAt a) → m = m'

/-- R42 (which the spec derives from R41): the aligned word, its halves and its bytes are the same bytes, most
significant first. -/
def Obligations.WordHalfAndByteViewsAreBigEndian : Prop :=
  ∀ (m : Memory) (a : Word) (k : Nat), m.blockSize = 4 → a.toNat % 4 = 0 → a.toNat + 4 ≤ m.size → k < 4 →
    m.memRead a 4 = .ok (m.wordAt a.toNat) ∧
    m.memRead (a + BitVec.ofNat 32 k) 1 = .ok ((m.byteAt (a.toNat + k)).setWidth 32) ∧
    byteOf (m.wordAt a.toNat) k = m.byteAt (a.toNat + k) ∧
    (k % 2 = 0 → m.memRead (a + BitVec.ofNat 32 k) 2 =
      .ok ((m.byteAt (a.toNat + k) ++ m.byteAt (a.toNat + k + 1)).setWidth 32))

/-! ## Encoding -/

/-- Every instruction decodes from its own encoding, with every operand at every value (the codes and field positions
are the spec's decisions D2, D3: log entry 8). -/
def Obligations.DecodeOfEncodeIsTheInstruction : Prop :=
  ∀ i : Instr, decode (encode i) = .ok i

/-- R80: every word that decodes is the encoding of what it decodes to: no bit of it is dropped, and no two words
decode to one instruction. -/
def Obligations.EncodeOfDecodeIsTheWord : Prop :=
  ∀ (w : Word) (i : Instr), decode w = .ok i → encode i = w

/-- R77 to R80: the decoder accepts exactly the words of the opcode table's rows, each as the row's instruction. -/
def Obligations.DecoderAcceptsExactlyTheOpcodeTable : Prop :=
  (∀ (w : Word) (i : Instr), decode w = .ok i → i.row ∈ opcodeTable ∧ i.row.matchesWord w = true) ∧
    ∀ r ∈ opcodeTable, ∀ w : Word, r.matchesWord w = true → ∃ i, decode w = .ok i ∧ i.row = r

/-- R74, R75, R76: the unused function codes, REGIMM codes and opcodes, as the rules list them, have no entry. -/
def Obligations.UnusedCodesAreInvalidInstructions : Prop :=
  ∀ w : Word,
    (w.extractLsb' 26 6 = 0x00#6 →
      (w.extractLsb' 0 6).toNat ∈ [0x01, 0x05, 0x07] ++ List.range' 0x09 7 ++ [0x11] ++ List.range' 0x13 5
        ++ List.range' 0x1C 4 ++ List.range' 0x27 3 ++ List.range' 0x2C 20 →
      decode w = .error .invalidInstruction) ∧
    (w.extractLsb' 26 6 = 0x01#6 → w.extractLsb' 16 5 ∉ [0x00#5, 0x01#5, 0x10#5, 0x11#5] →
      decode w = .error .invalidInstruction) ∧
    ((w.extractLsb' 26 6).toNat ∈ List.range' 0x10 16 ++ [0x21, 0x25, 0x27, 0x2A] ++ List.range' 0x2C 20 →
      decode w = .error .invalidInstruction)

/-- R77, R78: a word that fails a field check is no instruction. -/
def Obligations.ReservedFieldsMustBeZero : Prop :=
  ∀ (rs rt rd : RegIdx) (shamt : Shamt) (funct : BitVec 6) (imm : Imm16),
    (funct ∈ [0x00#6, 0x02#6, 0x03#6] → rs ≠ 0#5 → decode (rWord rs rt rd shamt funct) = .error .invalidInstruction) ∧
    (funct ∉ [0x00#6, 0x02#6, 0x03#6] → shamt ≠ 0#5 →
      decode (rWord rs rt rd shamt funct) = .error .invalidInstruction) ∧
    (funct ∈ [0x18#6, 0x19#6, 0x1A#6, 0x1B#6] → rd ≠ 0#5 →
      decode (rWord rs rt rd shamt funct) = .error .invalidInstruction) ∧
    (funct ∈ [0x10#6, 0x12#6] → (rs ≠ 0#5 ∨ rt ≠ 0#5) →
      decode (rWord rs rt rd shamt funct) = .error .invalidInstruction) ∧
    (rs ≠ 0#5 → decode (iWord 0x0F#6 rs rt imm) = .error .invalidInstruction)

/-- Words that the spec writes out in its instruction rules decode to the instruction they stand for. -/
def Obligations.SpecExampleWordsDecode : Prop :=
  decode 0x00221820#32 = .ok (.add 3#5 1#5 2#5) ∧ decode 0x2022FFFF#32 = .ok (.addi 2#5 1#5 0xFFFF#16) ∧
    decode 0x00220018#32 = .ok (.mult 1#5 2#5) ∧ decode 0x00001810#32 = .ok (.mfhi 3#5) ∧
    decode 0x00021903#32 = .ok (.sra 3#5 2#5 4#5) ∧ decode 0x00221804#32 = .ok (.sllv 3#5 2#5 1#5) ∧
    decode 0x3C028001#32 = .ok (.lui 2#5 0x8001#16) ∧ decode 0x0430FFFF#32 = .ok (.bltzal 1#5 0xFFFF#16) ∧
    decode 0x0C000010#32 = .ok (.jal 0x10#26) ∧ decode 0x03E00008#32 = .ok (.jr 31#5 0#5 0#5) ∧
    decode 0x88220001#32 = .ok (.lwl 2#5 1#5 1#16) ∧ decode 0xA4220002#32 = .ok (.sh 2#5 1#5 2#16) ∧
    decode 0x00000000#32 = .ok (.sll 0#5 0#5 0#5) ∧ decode 0x3C228001#32 = .error .invalidInstruction

/-- R64, R69: J and JAL are J-type, opcode 0 is R-type, every other entry is I-type, and an accessor answers exactly
for the fields of the structural type, `InternalError` for every other. -/
def Obligations.FieldAccessorsFollowTheStructuralType : Prop :=
  ∀ (i : Instr) (n : FieldName),
    (i.format = .jType ↔ (∃ target, i = .j target ∨ i = .jal target)) ∧
    (i.format = .rType ↔ (encode i).extractLsb' 26 6 = 0x00#6) ∧
    (i.format.hasField n = true → readField i n = .ok ((fieldsOf (encode i)).get n)) ∧
    (i.format.hasField n = false → readField i n = .error .internalError)

/-! ## The step -/

/-- R84 to R86: when the bytes at `pc` decode to `i`, a step is `i`'s own stages on the state with the word in `ir`.
R84, R103: the host's `step` call answers `Ok` with that next state when the step has one, the error kind the step
raised when it fails, and nothing when it is refused. -/
def Obligations.StepRunsTheDecodedInstruction : Prop :=
  (∀ (s : State) (i : Instr), s.At i → step s = exec i { s with ir := s.mem.wordAt s.pc.toNat }) ∧
  ∀ s : State,
    (∀ t, step s = .next t → stepCall (.ready s) = .ok (.ready t, .ok ())) ∧
    (∀ e, step s = .fault e → ∃ c, stepCall (.ready s) = .ok (c, .error e)) ∧
    (∀ r, step s = .refused r → stepCall (.ready s) = .error r)

/-- R52, R80, R159: fetch alignment, then fetch bounds, then decode (the spec's decisions D8, D11: log entry 13). -/
def Obligations.FetchAndDecodeFailInOrder : Prop :=
  ∀ s : State, s.mem.blockSize = 4 →
    (s.pc.toNat % 4 ≠ 0 → step s = .fault .invalidAlignment) ∧
    (s.pc.toNat % 4 = 0 → s.mem.size < s.pc.toNat + 4 → step s = .fault .invalidAddress) ∧
    (s.pc.toNat % 4 = 0 → s.pc.toNat + 4 ≤ s.mem.size →
      decode (s.mem.wordAt s.pc.toNat) = .error .invalidInstruction → step s = .fault .invalidInstruction)

/-- R48, R103: no meaning refuses, and a step refuses exactly when the CPU is bound to a store with another block size
(the spec's decision D9, log entry 6). -/
def Obligations.StepRefusesOnlyOtherBlockSizes : Prop :=
  (∀ (i : Instr) (s : State) (r : Refusal), exec i s ≠ .refused r) ∧
    ∀ (s : State) (r : Refusal), step s = .refused r ↔ (s.mem.blockSize ≠ 4 ∧ r = .blockSizeNotFour)

/-- R156, R171: a step raises four of the seven kinds; `InvalidArgument`, `AccessViolation` and `InternalError` are
not among them (the spec derives this table). -/
def Obligations.StepRaisesOnlyFourKinds : Prop :=
  ∀ (s : State) (e : Fault), step s = .fault e →
    e = .invalidInstruction ∨ e = .invalidAlignment ∨ e = .invalidAddress ∨ e = .arithmeticOverflow

/-- R90, C3: without `EA_OVERFLOW_CHECK` (the spec's decision D6, log entry 4) only ADD, ADDI and SUB overflow. -/
def Obligations.OnlySignedAddAndSubtractOverflow : Prop :=
  ∀ (i : Instr) (s : State), s.params.eaOverflowCheck = false → exec i s = .fault .arithmeticOverflow →
    ∃ (a b c : RegIdx) (imm : Imm16), i = .add a b c ∨ i = .sub a b c ∨ i = .addi a b imm

/-- R102, R161: a failed step leaves everything but `ir` as it was, `ir` too when the fetch failed, and stepping again
fails the same way and changes nothing more (R102 derives this; what `ir` holds is D29; log entry 5). -/
def Obligations.FailedStepChangesOnlyIrAndIsRetried : Prop :=
  ∀ (s : State) (c : Cpu) (e : Fault), stepCall (.ready s) = .ok (c, .error e) →
    ∃ w, c = .ready { s with ir := w } ∧ (∀ f, fetch s = .error f → w = s.ir) ∧ (∀ v, fetch s = .ok v → w = v) ∧
      stepCall c = .ok (c, .error e)

/-- R22, R96: every step sets `pc` to `npc`, and every step that is no branch or jump advances `npc` by 4, modulo 2^32
(the wrap is the spec's decision D24). -/
def Obligations.EveryInstructionMovesPcToNpc : Prop :=
  ∀ (i : Instr) (s t : State), exec i s = .next t →
    t.pc = s.npc ∧ (isControl i = false → t.npc = s.npc + 4#32)

/-- R133: the step of a branch or jump moves `pc` to the delay slot at `npc`, taken or not, and leaves the target or
the fall-through in `npc`; the next step moves `pc` there. For a taken one at P with target T and `npc = P + 4`: `pc =
P + 4` after the first step and `pc = T` after the second (R133's derived premise). -/
def Obligations.BranchActsAfterOneDelaySlot : Prop :=
  ∀ (s t u : State) (i : Instr), s.At i → isControl i = true → step s = .next t → step t = .next u →
    t.pc = s.npc ∧ u.pc = (takenTarget i s).getD (s.npc + 4#32) ∧
      ∀ target, s.npc = s.pc + 4#32 → takenTarget i s = some target → t.pc = s.pc + 4#32 ∧ u.pc = target

/-- R180: a branch or jump in the delay slot of a taken branch or jump with target T1: the instruction at T1 runs
next, as its delay slot, and control then goes to the second target, or to T1 + 4; a taken conditional branch counts
from T1, a J or JAL goes to the region of its own address, and JAL, BGEZAL and BLTZAL link T1 + 4 (the spec's decision
D23, log entry 17). -/
def Obligations.BranchInDelaySlotCountsFromFirstTarget : Prop :=
  ∀ (s t u v : State) (i j : Instr) (t1 : Word), s.At i → takenTarget i s = some t1 → step s = .next t → t.At j →
    isControl j = true → step t = .next u → step u = .next v →
      u.pc = t1 ∧ v.pc = (takenTarget j t).getD (t1 + 4#32) ∧
      (∀ rs rt off, j = .beq rs rt off → t.readReg rs = t.readReg rt → v.pc = t1 + offsetBytes off) ∧
      (∀ rs rt off, j = .bne rs rt off → t.readReg rs ≠ t.readReg rt → v.pc = t1 + offsetBytes off) ∧
      (∀ rs rt off, j = .blez rs rt off → (t.readReg rs).toInt ≤ 0 → v.pc = t1 + offsetBytes off) ∧
      (∀ rs rt off, j = .bgtz rs rt off → 0 < (t.readReg rs).toInt → v.pc = t1 + offsetBytes off) ∧
      (∀ rs off, j = .bltz rs off ∨ j = .bltzal rs off → (t.readReg rs).toInt < 0 → v.pc = t1 + offsetBytes off) ∧
      (∀ rs off, j = .bgez rs off ∨ j = .bgezal rs off → 0 ≤ (t.readReg rs).toInt → v.pc = t1 + offsetBytes off) ∧
      (∀ target, j = .j target ∨ j = .jal target → v.pc = regionTarget t.pc target) ∧
      (∀ target, j = .jal target → u.readReg 31#5 = t1 + 4#32) ∧
      (∀ rs off, j = .bltzal rs off → (t.readReg rs).toInt < 0 ∨ t.params.linkOnNotTaken = true →
        u.readReg 31#5 = t1 + 4#32) ∧
      (∀ rs off, j = .bgezal rs off → 0 ≤ (t.readReg rs).toInt ∨ t.params.linkOnNotTaken = true →
        u.readReg 31#5 = t1 + 4#32)

/-- R24: HI and LO are written by MULT, MULTU, DIV and DIVU only, and no instruction but MFHI, MFLO and the divisions
(through `DIV0_RESULT`) is affected by what they hold. -/
def Obligations.HiLoAreWrittenAndReadByFewInstructions : Prop :=
  ∀ (i : Instr) (s : State),
    (∀ t, writesHiLo i = false → exec i s = .next t → t.hi = s.hi ∧ t.lo = s.lo) ∧
    (readsHiLo i = false → ∀ h l : Word,
      (∀ t, exec i s = .next t →
        exec i { s with hi := h, lo := l } = .next (if writesHiLo i then t else { t with hi := h, lo := l })) ∧
      (∀ e, exec i s = .fault e → exec i { s with hi := h, lo := l } = .fault e))

/-- R54, R93: no instruction but the stores changes memory. -/
def Obligations.OnlyStoresWriteMemory : Prop :=
  ∀ (i : Instr) (s t : State), isStore i = false → exec i s = .next t → t.mem = s.mem

/-- R39, R9: neither a step nor any operation of the host, whether it succeeds or fails and on a CPU reset or not,
changes the memory size, the block size or the parameters `LINK_ON_NOT_TAKEN` and `EA_OVERFLOW_CHECK`, which the model
holds as data. (`DIV0_RESULT` is a constant and `END_OF_RUN` an argument of the run: there is nothing to change.) -/
def Obligations.StoreSizesAndParametersAreFixed : Prop :=
  (∀ (s t : State), step s = .next t →
    t.mem.size = s.mem.size ∧ t.mem.blockSize = s.mem.blockSize ∧ t.params = s.params) ∧
  (∀ (c d : Cpu), HostCall c d →
    d.memory.size = c.memory.size ∧ d.memory.blockSize = c.memory.blockSize ∧ d.params = c.params)

/-- R95, R99: an instruction changes no general register but its destination; stores, branches without link, J, JR and
the multiplies and divides have none. -/
def Obligations.OnlyTheDestinationRegisterChanges : Prop :=
  ∀ (i : Instr) (s t : State) (r : RegIdx), exec i s = .next t → destReg i ≠ some r → t.readReg r = s.readReg r

/-- R25, R26: what `ir` and `lmd` hold between steps is unobservable: a step from a state that differs in them answers
the same but for `lmd` (R25 and R26 derive this). -/
def Obligations.IrAndLmdAreUnobservable : Prop :=
  ∀ (s : State) (x y : Word),
    (∀ t, step s = .next t → ∃ z, step { s with ir := x, lmd := y } = .next { t with lmd := z } ∧ (z = y ∨ z = t.lmd)) ∧
    (∀ e, step s = .fault e → step { s with ir := x, lmd := y } = .fault e) ∧
    (∀ r, step s = .refused r → step { s with ir := x, lmd := y } = .refused r)

/-- R104: each instruction's own rule is the composition of the stage rules R87 to R100. -/
def Obligations.MeaningsAreTheStageComposition : Prop :=
  ∀ (i : Instr) (s : State), exec i s = runStages i s

/-! ## The invariant -/

/-- R17, R38, R40, R48, in the model's own representation of the store: every step keeps the invariant: r0's cell is
0, the store is in canonical form and lists only bytes that exist, its block size is 4. -/
def Obligations.StepKeepsTheInvariant : Prop :=
  ∀ (s t : State), s.Inv → step s = .next t → t.Inv

/-- The reset state meets the invariant. -/
def Obligations.ResetMeetsTheInvariant : Prop := State.reset.Inv

/-- The host's operations keep the invariant (R33, R35, R47, R173). -/
def Obligations.HostOperationsKeepTheInvariant : Prop :=
  ∀ s : State, s.Inv →
    (∀ d t, resetCall d (.ready s) = .ready t → t.Inv) ∧
    (∀ k v t, setRegister k v (.ready s) = .ok (.ready t, .ok ()) → t.Inv) ∧
    (∀ v t, setPc v (.ready s) = .ok (.ready t, .ok ()) → t.Inv) ∧
    (∀ a n bytes t, memWriteCall a n bytes (.ready s) = .ok (.ready t, .ok ()) → t.Inv)

/-! ## Arithmetic -/

/-- R105, R107, R109: ADD, SUB and ADDI deliver the exact signed result when it fits in 32 bits, whatever the
destination, and fail with `ArithmeticOverflow` when it does not. -/
def Obligations.SignedAddSubExactOrOverflow : Prop :=
  ∀ (rd rs rt : RegIdx) (imm : Imm16) (s : State),
    (FitsSigned32 ((s.readReg rs).toInt + (s.readReg rt).toInt) →
      ∃ t v, exec (.add rd rs rt) s = .next t ∧ v.toInt = (s.readReg rs).toInt + (s.readReg rt).toInt ∧
        RegResult s t rd v) ∧
    (¬FitsSigned32 ((s.readReg rs).toInt + (s.readReg rt).toInt) →
      exec (.add rd rs rt) s = .fault .arithmeticOverflow) ∧
    (FitsSigned32 ((s.readReg rs).toInt - (s.readReg rt).toInt) →
      ∃ t v, exec (.sub rd rs rt) s = .next t ∧ v.toInt = (s.readReg rs).toInt - (s.readReg rt).toInt ∧
        RegResult s t rd v) ∧
    (¬FitsSigned32 ((s.readReg rs).toInt - (s.readReg rt).toInt) →
      exec (.sub rd rs rt) s = .fault .arithmeticOverflow) ∧
    (FitsSigned32 ((s.readReg rs).toInt + imm.toInt) →
      ∃ t v, exec (.addi rt rs imm) s = .next t ∧ v.toInt = (s.readReg rs).toInt + imm.toInt ∧ RegResult s t rt v) ∧
    (¬FitsSigned32 ((s.readReg rs).toInt + imm.toInt) → exec (.addi rt rs imm) s = .fault .arithmeticOverflow)

/-- R106, R108, R110: ADDU, SUBU and ADDIU wrap modulo 2^32 and never fail; ADDIU's immediate is sign-extended. -/
def Obligations.UnsignedAddSubWrap : Prop :=
  ∀ (rd rs rt : RegIdx) (imm : Imm16) (s : State),
    (∃ t v, exec (.addu rd rs rt) s = .next t ∧
      v.toNat = ((s.readReg rs).toNat + (s.readReg rt).toNat) % 2 ^ 32 ∧ RegResult s t rd v) ∧
    (∃ t v, exec (.subu rd rs rt) s = .next t ∧
      (v.toNat : Int) = ((s.readReg rs).toNat - (s.readReg rt).toNat : Int) % 2 ^ 32 ∧ RegResult s t rd v) ∧
    (∃ t v, exec (.addiu rt rs imm) s = .next t ∧
      (v.toNat : Int) = ((s.readReg rs).toNat + imm.toInt : Int) % 2 ^ 32 ∧ RegResult s t rt v)

/-- R111, R112: HI and LO receive the halves of the exact 64-bit product, signed for MULT and unsigned for MULTU; no
general register is written. -/
def Obligations.MultiplyGivesTheExactProduct : Prop :=
  ∀ (rs rt : RegIdx) (s : State),
    (∃ t h l, exec (.mult rs rt) s = .next t ∧
      (h ++ l : BitVec 64).toInt = (s.readReg rs).toInt * (s.readReg rt).toInt ∧ HiLoResult s t h l) ∧
    (∃ t h l, exec (.multu rs rt) s = .next t ∧
      (h ++ l : BitVec 64).toNat = (s.readReg rs).toNat * (s.readReg rt).toNat ∧ HiLoResult s t h l)

/-- R113: DIV: quotient rounded toward zero in LO, remainder with the dividend's sign in HI; -2^31 / -1 gives LO =
0x80000000, HI = 0; a zero divisor gives the open `DIV0_RESULT` (a free value, log entry 3) and does not fail. The
corner is the spec's decision D15 (log entry 16) and the signs are its general knowledge. -/
def Obligations.SignedDivideTruncatesTowardZero : Prop :=
  ∀ (rs rt : RegIdx) (s : State),
    ∃ t h l, exec (.div rs rt) s = .next t ∧ HiLoResult s t h l ∧
      (s.readReg rt = 0#32 → (h, l) = Config.div0Result .div (s.readReg rs) s.hi s.lo) ∧
      (s.readReg rt ≠ 0#32 → ¬(s.readReg rs = 0x80000000#32 ∧ s.readReg rt = 0xFFFFFFFF#32) →
        l.toInt = (s.readReg rs).toInt.tdiv (s.readReg rt).toInt ∧
        h.toInt = (s.readReg rs).toInt - (s.readReg rt).toInt * (s.readReg rs).toInt.tdiv (s.readReg rt).toInt) ∧
      (s.readReg rs = 0x80000000#32 → s.readReg rt = 0xFFFFFFFF#32 → l = 0x80000000#32 ∧ h = 0#32)

/-- R114: DIVU: unsigned quotient in LO, remainder in HI; a zero divisor gives the open `DIV0_RESULT` (a free value,
log entry 3) and does not fail. -/
def Obligations.UnsignedDivideQuotientAndRemainder : Prop :=
  ∀ (rs rt : RegIdx) (s : State),
    ∃ t h l, exec (.divu rs rt) s = .next t ∧ HiLoResult s t h l ∧
      (s.readReg rt = 0#32 → (h, l) = Config.div0Result .divu (s.readReg rs) s.hi s.lo) ∧
      (s.readReg rt ≠ 0#32 →
        l.toNat = (s.readReg rs).toNat / (s.readReg rt).toNat ∧ h.toNat = (s.readReg rs).toNat % (s.readReg rt).toNat)

/-- R115, R116: MFHI and MFLO copy HI and LO into the destination and change neither. -/
def Obligations.MovesFromHiLoCopy : Prop :=
  ∀ (rd : RegIdx) (s : State),
    (∃ t, exec (.mfhi rd) s = .next t ∧ RegResult s t rd s.hi) ∧
    (∃ t, exec (.mflo rd) s = .next t ∧ RegResult s t rd s.lo)

/-! ## Logical, shift, compare -/

/-- R117, R118, R119: AND, OR and XOR act bit by bit. -/
def Obligations.RegisterLogicActsBitwise : Prop :=
  ∀ (rd rs rt : RegIdx) (s : State),
    (∃ t v, exec (.and rd rs rt) s = .next t ∧
      (∀ k, v.getLsbD k = ((s.readReg rs).getLsbD k && (s.readReg rt).getLsbD k)) ∧ RegResult s t rd v) ∧
    (∃ t v, exec (.or rd rs rt) s = .next t ∧
      (∀ k, v.getLsbD k = ((s.readReg rs).getLsbD k || (s.readReg rt).getLsbD k)) ∧ RegResult s t rd v) ∧
    (∃ t v, exec (.xor rd rs rt) s = .next t ∧
      (∀ k, v.getLsbD k = ((s.readReg rs).getLsbD k ^^ (s.readReg rt).getLsbD k)) ∧ RegResult s t rd v)

/-- R120 to R123: ANDI, ORI and XORI act bit by bit with the immediate zero-extended; LUI puts the immediate in bits
31..16 and zeros below. -/
def Obligations.ImmediateLogicZeroExtends : Prop :=
  ∀ (rt rs : RegIdx) (imm : Imm16) (s : State),
    (∃ t v, exec (.andi rt rs imm) s = .next t ∧
      (∀ k, v.getLsbD k = ((s.readReg rs).getLsbD k && imm.getLsbD k)) ∧ RegResult s t rt v) ∧
    (∃ t v, exec (.ori rt rs imm) s = .next t ∧
      (∀ k, v.getLsbD k = ((s.readReg rs).getLsbD k || imm.getLsbD k)) ∧ RegResult s t rt v) ∧
    (∃ t v, exec (.xori rt rs imm) s = .next t ∧
      (∀ k, v.getLsbD k = ((s.readReg rs).getLsbD k ^^ imm.getLsbD k)) ∧ RegResult s t rt v) ∧
    (∃ t v, exec (.lui rt imm) s = .next t ∧ v.toNat = imm.toNat * 2 ^ 16 ∧ RegResult s t rt v)

/-- R124, R125, R126: SLL, SRL and SRA by the 5-bit `shamt`. -/
def Obligations.ImmediateShiftsByShamt : Prop :=
  ∀ (rd rt : RegIdx) (shamt : Shamt) (s : State),
    (∃ t v, exec (.sll rd rt shamt) s = .next t ∧ v.toNat = (s.readReg rt).toNat * 2 ^ shamt.toNat % 2 ^ 32 ∧
      RegResult s t rd v) ∧
    (∃ t v, exec (.srl rd rt shamt) s = .next t ∧ v.toNat = (s.readReg rt).toNat / 2 ^ shamt.toNat ∧
      RegResult s t rd v) ∧
    (∃ t v, exec (.sra rd rt shamt) s = .next t ∧ v.toInt = (s.readReg rt).toInt / 2 ^ shamt.toNat ∧
      RegResult s t rd v)

/-- R127, R128: SLLV and SRLV by the low five bits of `x[rs]` (the spec's decision D13). -/
def Obligations.VariableShiftsByLowFiveBits : Prop :=
  ∀ (rd rt rs : RegIdx) (s : State),
    (∃ t v, exec (.sllv rd rt rs) s = .next t ∧
      v.toNat = (s.readReg rt).toNat * 2 ^ ((s.readReg rs).toNat % 32) % 2 ^ 32 ∧ RegResult s t rd v) ∧
    (∃ t v, exec (.srlv rd rt rs) s = .next t ∧
      v.toNat = (s.readReg rt).toNat / 2 ^ ((s.readReg rs).toNat % 32) ∧ RegResult s t rd v)

/-- R129 to R132: the set-less-than family writes 1 or 0; SLT and SLTI compare signed, SLTU and SLTIU unsigned, both
immediates being sign-extended first. -/
def Obligations.SetLessThanWritesOneOrZero : Prop :=
  ∀ (rd rs rt : RegIdx) (imm : Imm16) (s : State),
    (∃ t, exec (.slt rd rs rt) s = .next t ∧
      RegResult s t rd (if (s.readReg rs).toInt < (s.readReg rt).toInt then 1#32 else 0#32)) ∧
    (∃ t, exec (.sltu rd rs rt) s = .next t ∧
      RegResult s t rd (if (s.readReg rs).toNat < (s.readReg rt).toNat then 1#32 else 0#32)) ∧
    (∃ t, exec (.slti rt rs imm) s = .next t ∧
      RegResult s t rt (if (s.readReg rs).toInt < imm.toInt then 1#32 else 0#32)) ∧
    (∃ t, exec (.sltiu rt rs imm) s = .next t ∧
      RegResult s t rt (if (s.readReg rs).toNat < (imm.signExtend 32).toNat then 1#32 else 0#32))

/-! ## Branches and jumps -/

/-- R134, R135: BEQ and BNE. -/
def Obligations.EqualityBranches : Prop :=
  ∀ (rs rt : RegIdx) (off : Imm16) (s : State),
    (∃ t, exec (.beq rs rt off) s = .next t ∧
      JumpResult s t (if s.readReg rs = s.readReg rt then s.npc + offsetBytes off else s.npc + 4#32)) ∧
    (∃ t, exec (.bne rs rt off) s = .next t ∧
      JumpResult s t (if s.readReg rs ≠ s.readReg rt then s.npc + offsetBytes off else s.npc + 4#32))

/-- R136 to R139: BLEZ, BGTZ, BLTZ and BGEZ compare `x[rs]` with 0, signed, whatever the `rt` field of BLEZ and BGTZ
(the spec's decisions D4, D22 and D28: log entry 9). -/
def Obligations.SignBranches : Prop :=
  ∀ (rs rt : RegIdx) (off : Imm16) (s : State),
    (∃ t, exec (.blez rs rt off) s = .next t ∧
      JumpResult s t (if (s.readReg rs).toInt ≤ 0 then s.npc + offsetBytes off else s.npc + 4#32)) ∧
    (∃ t, exec (.bgtz rs rt off) s = .next t ∧
      JumpResult s t (if 0 < (s.readReg rs).toInt then s.npc + offsetBytes off else s.npc + 4#32)) ∧
    (∃ t, exec (.bltz rs off) s = .next t ∧
      JumpResult s t (if (s.readReg rs).toInt < 0 then s.npc + offsetBytes off else s.npc + 4#32)) ∧
    (∃ t, exec (.bgez rs off) s = .next t ∧
      JumpResult s t (if 0 ≤ (s.readReg rs).toInt then s.npc + offsetBytes off else s.npc + 4#32))

/-- R140, R141: BLTZAL and BGEZAL test `x[rs]` as it was before the link, also for r31 itself (R99 derives this), against
0 and signed (the spec's decisions D22 and D28: log entry 9); r31 receives `old_NPC + 4` when taken, and when not taken
too if `LINK_ON_NOT_TAKEN` (the spec's decision D16: log entry 4); without it a branch not taken leaves r31. The statement
holds for both values of that parameter. -/
def Obligations.LinkingBranches : Prop :=
  ∀ (rs : RegIdx) (off : Imm16) (s : State),
    (∃ t, exec (.bltzal rs off) s = .next t ∧
      if (s.readReg rs).toInt < 0 then LinkResult s t (s.npc + offsetBytes off)
      else if s.params.linkOnNotTaken = true then LinkResult s t (s.npc + 4#32)
      else JumpResult s t (s.npc + 4#32)) ∧
    (∃ t, exec (.bgezal rs off) s = .next t ∧
      if 0 ≤ (s.readReg rs).toInt then LinkResult s t (s.npc + offsetBytes off)
      else if s.params.linkOnNotTaken = true then LinkResult s t (s.npc + 4#32)
      else JumpResult s t (s.npc + 4#32))

/-- R142, R143: J and JAL go to the word index in the region of their own address; JAL links `old_NPC + 4`. -/
def Obligations.JumpsToRegionTarget : Prop :=
  ∀ (target : Target26) (s : State),
    (∃ t, exec (.j target) s = .next t ∧ JumpResult s t (regionTarget s.pc target)) ∧
    (∃ t, exec (.jal target) s = .next t ∧ LinkResult s t (regionTarget s.pc target))

/-- R144: JR goes to `x[rs] + x[rt]` modulo 2^32, whatever its `rd` field; with `EA_OVERFLOW_CHECK` a signed sum that
does not fit fails instead (the spec's decisions D5 and D6: log entries 9 and 4). -/
def Obligations.JumpRegisterAddsRsAndRt : Prop :=
  ∀ (rs rt rd : RegIdx) (s : State),
    ((s.params.eaOverflowCheck = false ∨ FitsSigned32 ((s.readReg rs).toInt + (s.readReg rt).toInt)) →
      ∃ t, exec (.jr rs rt rd) s = .next t ∧ JumpResult s t (s.readReg rs + s.readReg rt)) ∧
    (s.params.eaOverflowCheck = true → ¬FitsSigned32 ((s.readReg rs).toInt + (s.readReg rt).toInt) →
      exec (.jr rs rt rd) s = .fault .arithmeticOverflow)

/-! ## Loads and stores -/

/-- R145, R90: the effective address is the base plus the sign-extended offset modulo 2^32; with `EA_OVERFLOW_CHECK` a
signed sum that does not fit fails, in every load and store (the spec's decision D6, log entry 4). -/
def Obligations.EffectiveAddressIsBasePlusOffset : Prop :=
  ∀ (rt rs : RegIdx) (imm : Imm16) (s : State),
    ((s.params.eaOverflowCheck = false ∨ FitsSigned32 ((s.readReg rs).toInt + imm.toInt)) →
      effectiveAddress rs imm s = .ok (s.readReg rs + imm.signExtend 32)) ∧
    (s.params.eaOverflowCheck = true → ¬FitsSigned32 ((s.readReg rs).toInt + imm.toInt) →
      effectiveAddress rs imm s = .error .arithmeticOverflow ∧
      ∀ i ∈ [Instr.lb rt rs imm, .lbu rt rs imm, .lw rt rs imm, .lwl rt rs imm, .lwr rt rs imm, .sb rt rs imm,
        .sh rt rs imm, .sw rt rs imm], exec i s = .fault .arithmeticOverflow)

/-- R146, R147: LB sign-extends and LBU zero-extends the byte at EA; both fail with `InvalidAddress` when the
containing word is not within the store, so also for a byte below `MEM_SIZE` in a partial last word (U18): that the
naturally aligned word is what a byte access reads is the spec's decision D9 (R49; log entry 13). -/
def Obligations.ByteLoadsExtendTheByte : Prop :=
  ∀ (rt rs : RegIdx) (imm : Imm16) (s : State) (ea : Word), s.mem.blockSize = 4 →
    effectiveAddress rs imm s = .ok ea →
    (ea.toNat - ea.toNat % 4 + 4 ≤ s.mem.size →
      (∃ t, exec (.lb rt rs imm) s = .next t ∧ LoadResult s t rt ((s.mem.byteAt ea.toNat).signExtend 32)) ∧
      (∃ t, exec (.lbu rt rs imm) s = .next t ∧ LoadResult s t rt ((s.mem.byteAt ea.toNat).zeroExtend 32))) ∧
    (s.mem.size < ea.toNat - ea.toNat % 4 + 4 →
      exec (.lb rt rs imm) s = .fault .invalidAddress ∧ exec (.lbu rt rs imm) s = .fault .invalidAddress)

/-- R148: LW loads the big-endian word at an aligned EA; a misaligned EA fails first, then one out of bounds (the
spec's decision D10, log entry 13). -/
def Obligations.LoadWordReadsAlignedWord : Prop :=
  ∀ (rt rs : RegIdx) (imm : Imm16) (s : State) (ea : Word), s.mem.blockSize = 4 →
    effectiveAddress rs imm s = .ok ea →
    (ea.toNat % 4 = 0 → ea.toNat + 4 ≤ s.mem.size →
      ∃ t, exec (.lw rt rs imm) s = .next t ∧ LoadResult s t rt (s.mem.wordAt ea.toNat)) ∧
    (ea.toNat % 4 ≠ 0 → exec (.lw rt rs imm) s = .fault .invalidAlignment) ∧
    (ea.toNat % 4 = 0 → s.mem.size < ea.toNat + 4 → exec (.lw rt rs imm) s = .fault .invalidAddress)

/-- R149, R150: with `k = EA mod 4`, LWL puts the bytes from EA to the end of its word in the most significant places
and keeps the low `k` bytes of rt; LWR puts the bytes from the start of the word to EA in the least significant places
and keeps the high `3 - k` bytes. Both fail only when the word is not within the store. The merge is the spec's
decision D12 (log entry 14), and that the naturally aligned word is accessed is its decision D9 (log entry 13). -/
def Obligations.UnalignedLoadsMergeBytes : Prop :=
  ∀ (rt rs : RegIdx) (imm : Imm16) (s : State) (ea : Word), s.mem.blockSize = 4 →
    effectiveAddress rs imm s = .ok ea →
    (ea.toNat - ea.toNat % 4 + 4 ≤ s.mem.size →
      (∃ t v, exec (.lwl rt rs imm) s = .next t ∧ LoadResult s t rt v ∧
        ∀ p < 4, byteOf v p =
          if p + ea.toNat % 4 < 4 then s.mem.byteAt (ea.toNat + p) else byteOf (s.readReg rt) p) ∧
      (∃ t v, exec (.lwr rt rs imm) s = .next t ∧ LoadResult s t rt v ∧
        ∀ p < 4, byteOf v p =
          if 3 ≤ p + ea.toNat % 4 then s.mem.byteAt (ea.toNat - (3 - p)) else byteOf (s.readReg rt) p)) ∧
    (s.mem.size < ea.toNat - ea.toNat % 4 + 4 →
      exec (.lwl rt rs imm) s = .fault .invalidAddress ∧ exec (.lwr rt rs imm) s = .fault .invalidAddress)

/-- R150 derives, from the merge of D12 (log entry 14): `LWL rt, a(rs)` followed by `LWR rt, a+3(rs)` loads the
possibly misaligned word at `x[rs] + a`. -/
def Obligations.LwlThenLwrLoadsMisalignedWord : Prop :=
  ∀ (rt rs : RegIdx) (a b : Imm16) (s : State), s.mem.blockSize = 4 → s.params.eaOverflowCheck = false →
    rt ≠ 0#5 → rt ≠ rs → b.toInt = a.toInt + 3 →
    (s.readReg rs + a.signExtend 32).toNat + 3 < 2 ^ 32 →
    (s.readReg rs + b.signExtend 32).toNat - (s.readReg rs + b.signExtend 32).toNat % 4 + 4 ≤ s.mem.size →
    ∃ t u, exec (.lwl rt rs a) s = .next t ∧ exec (.lwr rt rs b) t = .next u ∧
      u.readReg rt = s.mem.wordAt (s.readReg rs + a.signExtend 32).toNat ∧
      (∀ r, r ≠ rt → u.readReg r = s.readReg r) ∧ SameMemory s u

/-- R151, R152, R153: SB, SH and SW store the low 1, 2 or 4 bytes of `x[rt]` big-endian at EA and change no other byte
and no register; SH and SW fail first on a misaligned EA, then all three on a word not within the store. Which alignment
SH and SW need, and that it is checked before the access, is the spec's decision D10 (R51); that the containing aligned
word is what must be within the store is its decision D9 (R50): log entry 13. -/
def Obligations.StoresWriteExactlyTheirBytes : Prop :=
  ∀ (rt rs : RegIdx) (imm : Imm16) (s : State) (ea : Word), s.mem.blockSize = 4 →
    effectiveAddress rs imm s = .ok ea →
    (ea.toNat - ea.toNat % 4 + 4 ≤ s.mem.size →
      (∃ t, exec (.sb rt rs imm) s = .next t ∧ StoreResult s t ea.toNat 1 (s.readReg rt)) ∧
      (ea.toNat % 2 = 0 → ∃ t, exec (.sh rt rs imm) s = .next t ∧ StoreResult s t ea.toNat 2 (s.readReg rt)) ∧
      (ea.toNat % 4 = 0 → ∃ t, exec (.sw rt rs imm) s = .next t ∧ StoreResult s t ea.toNat 4 (s.readReg rt))) ∧
    (ea.toNat % 2 ≠ 0 → exec (.sh rt rs imm) s = .fault .invalidAlignment) ∧
    (ea.toNat % 4 ≠ 0 → exec (.sw rt rs imm) s = .fault .invalidAlignment) ∧
    (s.mem.size < ea.toNat - ea.toNat % 4 + 4 →
      exec (.sb rt rs imm) s = .fault .invalidAddress ∧
      (ea.toNat % 2 = 0 → exec (.sh rt rs imm) s = .fault .invalidAddress) ∧
      (ea.toNat % 4 = 0 → exec (.sw rt rs imm) s = .fault .invalidAddress))

/-- R61 (derived by the spec): a word stored at the address of the next instruction is what the next step fetches. -/
def Obligations.StoredWordIsFetchedNext : Prop :=
  ∀ (rt rs : RegIdx) (imm : Imm16) (s : State) (ea : Word), s.mem.blockSize = 4 →
    effectiveAddress rs imm s = .ok ea → ea.toNat % 4 = 0 → ea.toNat + 4 ≤ s.mem.size → s.npc = ea →
    ∃ t, exec (.sw rt rs imm) s = .next t ∧ fetch t = .ok (s.readReg rt)

/-! ## Host operations -/

/-- R32, R33: the register operations take indices 0..31 and fail with `InvalidArgument`, changing nothing, on every
other; a write to index 0 succeeds and does nothing; any other written value is read back, no other register changes.
-/
def Obligations.HostRegisterAccessChecksTheIndex : Prop :=
  ∀ (s : State) (k : Nat) (v : Word),
    (k < 32 → getRegister k (.ready s) = .ok (.ready s, .ok (s.readReg (BitVec.ofNat 5 k)))) ∧
    (32 ≤ k → getRegister k (.ready s) = .ok (.ready s, .error .invalidArgument) ∧
      setRegister k v (.ready s) = .ok (.ready s, .error .invalidArgument)) ∧
    (setRegister 0 v (.ready s) = .ok (.ready s, .ok ())) ∧
    (0 < k → k < 32 → ∃ t, setRegister k v (.ready s) = .ok (.ready t, .ok ()) ∧
      (∀ n < 32, getRegister n (.ready t) =
        .ok (.ready t, .ok (if n = k then v else s.readReg (BitVec.ofNat 5 n)))) ∧
      t.pc = s.pc ∧ t.npc = s.npc ∧ SameHiLo s t ∧ SameMemory s t ∧ SameFixed s t ∧ t.lmd = s.lmd)

/-- R34, R35: `get_pc` returns `pc`; `set_pc` sets `pc` to the value and `npc` to the value plus 4, and nothing else,
so that a pending branch target is discarded; it checks nothing, and a bad value fails at the next fetch (the spec's
decision D26). -/
def Obligations.SetPcResynchronisesNpc : Prop :=
  ∀ (s : State) (v : Word),
    getPc (.ready s) = .ok (.ready s, .ok s.pc) ∧
    ∃ t, setPc v (.ready s) = .ok (.ready t, .ok ()) ∧ t.pc = v ∧ t.npc = v + 4#32 ∧ SameRegs s t ∧ SameHiLo s t ∧
      SameMemory s t ∧ SameFixed s t ∧ t.lmd = s.lmd ∧
      (s.mem.blockSize = 4 → v.toNat % 4 ≠ 0 → step t = .fault .invalidAlignment) ∧
      (s.mem.blockSize = 4 → v.toNat % 4 = 0 → s.mem.size < v.toNat + 4 → step t = .fault .invalidAddress)

/-- R47: `mem_read` and `mem_write` are `BlockRead` and `BlockWrite` on the memory of any CPU, reset or not, at any block
size: alignment is checked first, then bounds (the spec's decisions D8 and D7: log entry 13), and a failed call leaves
the CPU alone; a read answers the bytes in order and changes nothing; a write changes exactly the named bytes and no
register, pc or parameter, and a read of the span then returns what was written. That fewer bytes than the length are
refused is the model's choice (log entry 12). -/
def Obligations.HostMemoryWriteThenRead : Prop :=
  ∀ (c : Cpu) (addr : Word) (len : Nat) (bytes : List Byte),
    ((addr.toNat % c.memory.blockSize ≠ 0 ∨ (addr.toNat + len) % c.memory.blockSize ≠ 0) →
      memReadCall addr len c = .ok (c, .error .invalidAlignment) ∧
      (len ≤ bytes.length → memWriteCall addr len bytes c = .ok (c, .error .invalidAlignment))) ∧
    (addr.toNat % c.memory.blockSize = 0 → (addr.toNat + len) % c.memory.blockSize = 0 →
      c.memory.size < addr.toNat + len →
      memReadCall addr len c = .ok (c, .error .invalidAddress) ∧
      (len ≤ bytes.length → memWriteCall addr len bytes c = .ok (c, .error .invalidAddress))) ∧
    (addr.toNat % c.memory.blockSize = 0 → (addr.toNat + len) % c.memory.blockSize = 0 →
      addr.toNat + len ≤ c.memory.size →
      (∃ out, memReadCall addr len c = .ok (c, .ok out) ∧ out.length = len ∧
        ∀ (k : Nat) (h : k < out.length), out[k] = c.memory.byteAt (addr.toNat + k)) ∧
      ∀ hlen : len ≤ bytes.length, ∃ d, memWriteCall addr len bytes c = .ok (d, .ok ()) ∧
        (∀ p m, c = .unreset p m → d = .unreset p d.memory) ∧
        (∀ s, c = .ready s → d = .ready { s with mem := d.memory }) ∧
        d.memory.size = c.memory.size ∧ d.memory.blockSize = c.memory.blockSize ∧
        (∀ x, d.memory.byteAt x =
          if h : addr.toNat ≤ x ∧ x - addr.toNat < len then bytes[x - addr.toNat]'(Nat.lt_of_lt_of_le h.2 hlen)
          else c.memory.byteAt x) ∧
        memReadCall addr len d = .ok (d, .ok (bytes.take len))) ∧
    (bytes.length < len → memWriteCall addr len bytes c = .error .dataShorterThanLength)

/-- R37, R38, R48: `create_memory` gives a store of zeros where the allocation is possible and fails where it is not.
Whether it is possible is the host environment's affair (U13), which the model takes as the argument `canAllocate` (log
entry 18); block size 0, which the model refuses (log entry 12), is not spoken of. `create_cpu` binds only a block size
of 4, and `step`, `get_register` and `get_pc` are refused until the CPU is reset (D9 and D18: log entries 6 and 7). -/
def Obligations.CreatedCpuIsRefusedUntilReset : Prop :=
  ∀ (p : Params) (size blockSize k : Nat), 0 < blockSize →
    createMemory false size blockSize = .error .allocationFailed ∧
    ∃ m, createMemory true size blockSize = .ok m ∧ m.size = size ∧ m.blockSize = blockSize ∧
      (∀ a, m.byteAt a = 0#8) ∧
      (blockSize ≠ 4 → createCpu p m = .error .blockSizeNotFour) ∧
      (blockSize = 4 → ∃ c, createCpu p m = .ok c ∧ c.memory = m ∧ c.params = p ∧ stepCall c = .error .cpuNotReset ∧
        getRegister k c = .error .cpuNotReset ∧ getPc c = .error .cpuNotReset ∧
        ∀ d, ∃ t, resetCall d c = .ready t ∧ t.params = p ∧ t.mem = m)
end

