-- ==== Sys2Proof/Laws/State.lean ====
section
/-!
SUPPORT. What each named update of the state does to each field, one lemma per field, so that no later proof unfolds a
record update; and what reading a register after a write gives.
-/

namespace Sys2Proof.Machine

variable (s : State)

/-! ## `writeReg` -/

@[simp] theorem State.writeReg_zero (v : Word) : s.writeReg 0#5 v = s := rfl

@[simp] theorem State.writeReg_pc (r : RegIdx) (v : Word) : (s.writeReg r v).pc = s.pc := by
  unfold State.writeReg; split <;> rfl
@[simp] theorem State.writeReg_npc (r : RegIdx) (v : Word) : (s.writeReg r v).npc = s.npc := by
  unfold State.writeReg; split <;> rfl
@[simp] theorem State.writeReg_hi (r : RegIdx) (v : Word) : (s.writeReg r v).hi = s.hi := by
  unfold State.writeReg; split <;> rfl
@[simp] theorem State.writeReg_lo (r : RegIdx) (v : Word) : (s.writeReg r v).lo = s.lo := by
  unfold State.writeReg; split <;> rfl
@[simp] theorem State.writeReg_ir (r : RegIdx) (v : Word) : (s.writeReg r v).ir = s.ir := by
  unfold State.writeReg; split <;> rfl
@[simp] theorem State.writeReg_lmd (r : RegIdx) (v : Word) : (s.writeReg r v).lmd = s.lmd := by
  unfold State.writeReg; split <;> rfl
@[simp] theorem State.writeReg_mem (r : RegIdx) (v : Word) : (s.writeReg r v).mem = s.mem := by
  unfold State.writeReg; split <;> rfl
@[simp] theorem State.writeReg_params (r : RegIdx) (v : Word) : (s.writeReg r v).params = s.params := by
  unfold State.writeReg; split <;> rfl

/-- R17: register 0 reads 0 in every state. -/
@[simp] theorem State.readReg_zero : s.readReg 0#5 = 0#32 := rfl

/-- Reading depends on the register file alone. -/
theorem State.readReg_congr {s t : State} (h : t.regs = s.regs) (r : RegIdx) : t.readReg r = s.readReg r := by
  unfold State.readReg; rw [h]

/-- R17, R18: what a register reads after a write. -/
theorem State.readReg_writeReg (r q : RegIdx) (v : Word) :
    (s.writeReg r v).readReg q = if q = 0#5 then 0#32 else if q = r then v else s.readReg q := by
  unfold State.readReg State.writeReg
  by_cases hq : q = 0#5
  · simp [hq]
  · by_cases hr : r = 0#5
    · simp [hq, hr]
    · by_cases hqr : q = r
      · subst hqr; simp [hq]
      · have hne : r.toNat ≠ q.toNat := fun h => hqr (BitVec.eq_of_toNat_eq h.symm)
        simp [hq, hr, hqr, hne]

/-- A write keeps the cell of r0. -/
theorem State.writeReg_zeroCell (r : RegIdx) (v : Word) : (s.writeReg r v).regs[0] = s.regs[0] := by
  unfold State.writeReg
  split
  · rfl
  · rename_i h
    have hne : r.toNat ≠ 0 := fun h' => h (BitVec.eq_of_toNat_eq (by simpa using h'))
    simp [hne]

/-! ## `nextSeq`, `redirect`, `setPc` -/

@[simp] theorem State.nextSeq_regs : s.nextSeq.regs = s.regs := rfl
@[simp] theorem State.nextSeq_pc : s.nextSeq.pc = s.npc := rfl
@[simp] theorem State.nextSeq_npc : s.nextSeq.npc = s.npc + 4#32 := rfl
@[simp] theorem State.nextSeq_hi : s.nextSeq.hi = s.hi := rfl
@[simp] theorem State.nextSeq_lo : s.nextSeq.lo = s.lo := rfl
@[simp] theorem State.nextSeq_ir : s.nextSeq.ir = s.ir := rfl
@[simp] theorem State.nextSeq_lmd : s.nextSeq.lmd = s.lmd := rfl
@[simp] theorem State.nextSeq_mem : s.nextSeq.mem = s.mem := rfl
@[simp] theorem State.nextSeq_params : s.nextSeq.params = s.params := rfl
@[simp] theorem State.nextSeq_readReg (r : RegIdx) : s.nextSeq.readReg r = s.readReg r := rfl

variable (target : Word)

@[simp] theorem State.redirect_regs : (s.redirect target).regs = s.regs := rfl
@[simp] theorem State.redirect_pc : (s.redirect target).pc = s.npc := rfl
@[simp] theorem State.redirect_npc : (s.redirect target).npc = target := rfl
@[simp] theorem State.redirect_hi : (s.redirect target).hi = s.hi := rfl
@[simp] theorem State.redirect_lo : (s.redirect target).lo = s.lo := rfl
@[simp] theorem State.redirect_ir : (s.redirect target).ir = s.ir := rfl
@[simp] theorem State.redirect_lmd : (s.redirect target).lmd = s.lmd := rfl
@[simp] theorem State.redirect_mem : (s.redirect target).mem = s.mem := rfl
@[simp] theorem State.redirect_params : (s.redirect target).params = s.params := rfl
@[simp] theorem State.redirect_readReg (r : RegIdx) : (s.redirect target).readReg r = s.readReg r := rfl

@[simp] theorem State.setPc_regs : (s.setPc target).regs = s.regs := rfl
@[simp] theorem State.setPc_pc : (s.setPc target).pc = target := rfl
@[simp] theorem State.setPc_npc : (s.setPc target).npc = target + 4#32 := rfl
@[simp] theorem State.setPc_hi : (s.setPc target).hi = s.hi := rfl
@[simp] theorem State.setPc_lo : (s.setPc target).lo = s.lo := rfl
@[simp] theorem State.setPc_ir : (s.setPc target).ir = s.ir := rfl
@[simp] theorem State.setPc_lmd : (s.setPc target).lmd = s.lmd := rfl
@[simp] theorem State.setPc_mem : (s.setPc target).mem = s.mem := rfl
@[simp] theorem State.setPc_params : (s.setPc target).params = s.params := rfl
@[simp] theorem State.setPc_readReg (r : RegIdx) : (s.setPc target).readReg r = s.readReg r := rfl

/-! ## `link` -/

@[simp] theorem State.link_pc : s.link.pc = s.pc := State.writeReg_pc s _ _
@[simp] theorem State.link_npc : s.link.npc = s.npc := State.writeReg_npc s _ _
@[simp] theorem State.link_hi : s.link.hi = s.hi := State.writeReg_hi s _ _
@[simp] theorem State.link_lo : s.link.lo = s.lo := State.writeReg_lo s _ _
@[simp] theorem State.link_ir : s.link.ir = s.ir := State.writeReg_ir s _ _
@[simp] theorem State.link_lmd : s.link.lmd = s.lmd := State.writeReg_lmd s _ _
@[simp] theorem State.link_mem : s.link.mem = s.mem := State.writeReg_mem s _ _
@[simp] theorem State.link_params : s.link.params = s.params := State.writeReg_params s _ _

/-- R99: r31 holds the link address, every other register is as before. -/
theorem State.readReg_link (q : RegIdx) :
    s.link.readReg q = if q = 0#5 then 0#32 else if q = 31#5 then s.npc + 4#32 else s.readReg q :=
  s.readReg_writeReg _ _ _

theorem State.link_zeroCell : s.link.regs[0] = s.regs[0] := s.writeReg_zeroCell _ _

/-! ## `withFetchWord` -/

@[simp] theorem State.withFetchWord_regs (n w : Nat) : (s.withFetchWord n w).regs = s.regs := rfl
@[simp] theorem State.withFetchWord_pc (n w : Nat) : (s.withFetchWord n w).pc = s.pc := rfl
@[simp] theorem State.withFetchWord_npc (n w : Nat) : (s.withFetchWord n w).npc = s.npc := rfl
@[simp] theorem State.withFetchWord_readReg (n w : Nat) (r : RegIdx) :
    (s.withFetchWord n w).readReg r = s.readReg r := rfl

end Sys2Proof.Machine
end

