-- ==== Sys2Proof/Laws/Memory.lean ====
section
/-!
SUPPORT. The laws of the store: what a byte reads after a write, that every write keeps the canonical form, and what
each block operation and access primitive answers.
-/

namespace Sys2Proof.Machine

/-! ## Cells -/

theorem lookupCell_insertCell_self (a : Nat) (b : Byte) (cs : List Host.Cell) (h : ∀ c ∈ cs, c.1 ≠ a) :
    lookupCell (insertCell a b cs) a = b := by
  induction cs with
  | nil => simp [insertCell, lookupCell]
  | cons c rest ih =>
    obtain ⟨k, v⟩ := c
    have hk : k ≠ a := h (k, v) (by simp)
    unfold insertCell
    split
    · simp [lookupCell]
    · simp only [lookupCell, if_neg hk]
      exact ih fun c hc => h c (by simp [hc])

theorem lookupCell_insertCell_ne {a x : Nat} (hx : x ≠ a) (b : Byte) (cs : List Host.Cell) :
    lookupCell (insertCell a b cs) x = lookupCell cs x := by
  induction cs with
  | nil => simp [insertCell, lookupCell, hx.symm]
  | cons c rest ih =>
    obtain ⟨k, v⟩ := c
    unfold insertCell
    split
    · simp [lookupCell, hx.symm]
    · simp only [lookupCell, ih]

theorem lookupCell_filter_ne {a x : Nat} (hx : x ≠ a) (cs : List Host.Cell) :
    lookupCell (cs.filter fun c => c.1 != a) x = lookupCell cs x := by
  induction cs with
  | nil => rfl
  | cons c rest ih =>
    obtain ⟨k, v⟩ := c
    by_cases hk : k = a
    · subst hk; simp [lookupCell, hx.symm, ih]
    · simp [hk, lookupCell, ih]

theorem lookupCell_of_not_mem {a : Nat} {cs : List Host.Cell} (h : ∀ c ∈ cs, c.1 ≠ a) :
    lookupCell cs a = Memory.background := by
  induction cs with
  | nil => rfl
  | cons c rest ih =>
    obtain ⟨k, v⟩ := c
    have hk : k ≠ a := h (k, v) (by simp)
    simp only [lookupCell, if_neg hk]
    exact ih fun c hc => h c (by simp [hc])

theorem filter_ne_keys (a : Nat) (cs : List Host.Cell) : ∀ c ∈ cs.filter (fun c => c.1 != a), c.1 ≠ a := by
  intro c hc
  simpa using (List.mem_filter.mp hc).2

theorem lookupCell_writeCell (cs : List Host.Cell) (a x : Nat) (b : Byte) :
    lookupCell (writeCell cs a b) x = if x = a then b else lookupCell cs x := by
  unfold writeCell
  by_cases hx : x = a
  · subst hx
    by_cases hb : b = Memory.background
    · simpa [hb] using lookupCell_of_not_mem (filter_ne_keys x cs)
    · simpa [hb] using lookupCell_insertCell_self x b _ (filter_ne_keys x cs)
  · by_cases hb : b = Memory.background
    · simpa [hb, hx] using lookupCell_filter_ne hx cs
    · simpa [hb, hx, lookupCell_insertCell_ne hx] using lookupCell_filter_ne hx cs

theorem mem_insertCell {a : Nat} {b : Byte} {cs : List Host.Cell} {c : Host.Cell} :
    c ∈ insertCell a b cs ↔ c = (a, b) ∨ c ∈ cs := by
  induction cs with
  | nil => simp [insertCell]
  | cons d rest ih =>
    obtain ⟨k, v⟩ := d
    unfold insertCell
    split
    · simp
    · simp only [List.mem_cons, ih]; tauto

theorem pairwise_insertCell {a : Nat} {b : Byte} {cs : List Host.Cell} (h : cs.Pairwise fun c d => c.1 < d.1)
    (hne : ∀ c ∈ cs, c.1 ≠ a) : (insertCell a b cs).Pairwise fun c d => c.1 < d.1 := by
  induction cs with
  | nil => simp [insertCell]
  | cons d rest ih =>
    obtain ⟨k, v⟩ := d
    have hk : k ≠ a := hne (k, v) (by simp)
    rw [List.pairwise_cons] at h
    unfold insertCell
    split
    · rename_i hlt
      rw [List.pairwise_cons, List.pairwise_cons]
      refine ⟨fun c hc => ?_, h⟩
      rcases List.mem_cons.mp hc with rfl | hc
      · exact hlt
      · exact Nat.lt_trans hlt (h.1 c hc)
    · rename_i hge
      rw [List.pairwise_cons]
      refine ⟨fun c hc => ?_, ih h.2 fun c hc => hne c (by simp [hc])⟩
      rcases mem_insertCell.mp hc with rfl | hc
      · show k < a; omega
      · exact h.1 c hc

theorem mem_writeCell {cs : List Host.Cell} {a : Nat} {b : Byte} {c : Host.Cell} (hc : c ∈ writeCell cs a b) :
    c = (a, b) ∧ b ≠ Memory.background ∨ c ∈ cs := by
  unfold writeCell at hc
  by_cases hb : b = Memory.background
  · simp only [hb, if_true] at hc
    exact .inr (List.mem_of_mem_filter hc)
  · simp only [hb, if_false] at hc
    rcases mem_insertCell.mp hc with h | h
    · exact .inl ⟨h, hb⟩
    · exact .inr (List.mem_of_mem_filter h)

theorem writeCell_pairwise {cs : List Host.Cell} (a : Nat) (b : Byte) (h : cs.Pairwise fun c d => c.1 < d.1) :
    (writeCell cs a b).Pairwise fun c d => c.1 < d.1 := by
  unfold writeCell
  by_cases hb : b = Memory.background
  · simpa [hb] using h.filter _
  · simpa [hb] using pairwise_insertCell (b := b) (h.filter _) (filter_ne_keys a cs)

/-! ## Bytes -/

@[simp] theorem Memory.setByte_size (m : Memory) (a : Nat) (b : Byte) : (m.setByte a b).size = m.size := rfl
@[simp] theorem Memory.setByte_blockSize (m : Memory) (a : Nat) (b : Byte) :
    (m.setByte a b).blockSize = m.blockSize := rfl

/-- A byte reads what was written to it last; every other byte reads as before (R46, R54). -/
theorem Memory.byteAt_setByte (m : Memory) (a x : Nat) (b : Byte) :
    (m.setByte a b).byteAt x = if x = a then b else m.byteAt x :=
  lookupCell_writeCell m.cells a x b

/-- A one-byte write keeps the canonical form. -/
theorem Memory.setByte_wf {m : Memory} (h : m.wf) (a : Nat) (b : Byte) : (m.setByte a b).wf := by
  refine ⟨writeCell_pairwise a b h.1, fun c hc => ?_⟩
  rcases mem_writeCell hc with ⟨rfl, hb⟩ | hc
  · exact hb
  · exact h.2 c hc

/-- A one-byte write at a byte that exists lists no byte that does not. -/
theorem Memory.setByte_inBounds {m : Memory} (h : m.inBounds) {a : Nat} (ha : a < m.size) (b : Byte) :
    (m.setByte a b).inBounds := by
  intro c hc
  rcases mem_writeCell hc with ⟨rfl, _⟩ | hc
  · exact ha
  · exact h c hc

@[simp] theorem Memory.setBytes_size (m : Memory) (a : Nat) (bytes : List Byte) :
    (m.setBytes a bytes).size = m.size := by
  induction bytes generalizing m a with
  | nil => rfl
  | cons b rest ih => exact ih (m.setByte a b) (a + 1)

@[simp] theorem Memory.setBytes_blockSize (m : Memory) (a : Nat) (bytes : List Byte) :
    (m.setBytes a bytes).blockSize = m.blockSize := by
  induction bytes generalizing m a with
  | nil => rfl
  | cons b rest ih => exact ih (m.setByte a b) (a + 1)

/-- What a byte reads after consecutive bytes were written from `a` on. -/
theorem Memory.byteAt_setBytes (m : Memory) (a x : Nat) (bytes : List Byte) :
    (m.setBytes a bytes).byteAt x =
      if h : a ≤ x ∧ x - a < bytes.length then bytes[x - a]'h.2 else m.byteAt x := by
  induction bytes generalizing m a with
  | nil => simp [Memory.setBytes]
  | cons b rest ih =>
    rw [Memory.setBytes, ih, Memory.byteAt_setByte]
    by_cases hx : x = a
    · subst hx
      have h1 : ¬(x + 1 ≤ x ∧ x - (x + 1) < rest.length) := by omega
      simp
    · by_cases hlt : x < a
      · have h1 : ¬(a + 1 ≤ x ∧ x - (a + 1) < rest.length) := by omega
        have h2 : ¬(a ≤ x ∧ x - a < (b :: rest).length) := by omega
        simp only [dif_neg h1, dif_neg h2, if_neg hx]
      · have hs : x - a = (x - (a + 1)) + 1 := by omega
        by_cases hin : x - (a + 1) < rest.length
        · have h1 : a + 1 ≤ x ∧ x - (a + 1) < rest.length := ⟨by omega, hin⟩
          have h2 : a ≤ x ∧ x - a < (b :: rest).length := ⟨by omega, by simp; omega⟩
          rw [dif_pos h1, dif_pos h2]
          simp only [hs, List.getElem_cons_succ]
        · have h1 : ¬(a + 1 ≤ x ∧ x - (a + 1) < rest.length) := by omega
          have h2 : ¬(a ≤ x ∧ x - a < (b :: rest).length) := by simp; omega
          simp only [dif_neg h1, dif_neg h2, if_neg hx]

theorem Memory.setBytes_wf {m : Memory} (h : m.wf) (a : Nat) (bytes : List Byte) : (m.setBytes a bytes).wf := by
  induction bytes generalizing m a with
  | nil => exact h
  | cons b rest ih => exact ih (Memory.setByte_wf h a b) (a + 1)

theorem Memory.setBytes_inBounds {m : Memory} (h : m.inBounds) {a : Nat} {bytes : List Byte}
    (ha : a + bytes.length ≤ m.size) : (m.setBytes a bytes).inBounds := by
  induction bytes generalizing m a with
  | nil => exact h
  | cons b rest ih =>
    simp only [List.length_cons] at ha
    exact ih (Memory.setByte_inBounds h (by omega) b) (by simpa using by omega)

@[simp] theorem Memory.bytesAt_length (m : Memory) (a len : Nat) : (m.bytesAt a len).length = len := by
  induction len generalizing a with
  | zero => rfl
  | succ n ih => simp [Memory.bytesAt, ih]

theorem Memory.getElem_bytesAt (m : Memory) (a len i : Nat) (h : i < (m.bytesAt a len).length) :
    (m.bytesAt a len)[i] = m.byteAt (a + i) := by
  induction len generalizing a i with
  | zero => simp at h
  | succ n ih =>
    cases i with
    | zero => simp [Memory.bytesAt]
    | succ i =>
      simp only [Memory.bytesAt, List.getElem_cons_succ]
      rw [ih (a + 1) i (by simpa using h)]
      congr 1; omega

theorem Memory.bytesAt_four (m : Memory) (a : Nat) :
    m.bytesAt a 4 = [m.byteAt a, m.byteAt (a + 1), m.byteAt (a + 2), m.byteAt (a + 3)] := rfl

/-! ## Block operations -/

/-- `BlockRead` succeeds exactly when both checks pass (R43). -/
theorem Memory.checkSpan_ok {m : Memory} {addr len : Nat} (h1 : addr % m.blockSize = 0)
    (h2 : (addr + len) % m.blockSize = 0) (h3 : addr + len ≤ m.size) : m.checkSpan addr len = .ok () := by
  have h4 : ¬addr + len > m.size := by omega
  simp [Memory.checkSpan, h1, h2, h4]

theorem Memory.checkSpan_inv {m : Memory} {addr len : Nat} {u : Unit} (h : m.checkSpan addr len = .ok u) :
    addr % m.blockSize = 0 ∧ (addr + len) % m.blockSize = 0 ∧ addr + len ≤ m.size := by
  unfold Memory.checkSpan at h
  split at h
  · cases h
  · split at h
    · cases h
    · rename_i h1 h2
      simp only [ne_eq, not_or, not_not] at h1
      exact ⟨h1.1, h1.2, by omega⟩

theorem Memory.checkSpan_misaligned {m : Memory} {addr len : Nat}
    (h : addr % m.blockSize ≠ 0 ∨ (addr + len) % m.blockSize ≠ 0) :
    m.checkSpan addr len = .error .invalidAlignment := if_pos h

theorem Memory.checkSpan_outside {m : Memory} {addr len : Nat} (h1 : addr % m.blockSize = 0)
    (h2 : (addr + len) % m.blockSize = 0) (h3 : m.size < addr + len) :
    m.checkSpan addr len = .error .invalidAddress := by
  simp [Memory.checkSpan, h1, h2, h3]

/-- A failing block check answers one of two kinds. -/
theorem Memory.checkSpan_error {m : Memory} {addr len : Nat} {e : Fault} (h : m.checkSpan addr len = .error e) :
    e = .invalidAlignment ∨ e = .invalidAddress := by
  unfold Memory.checkSpan at h
  split at h
  · cases h; exact .inl rfl
  · split at h
    · cases h; exact .inr rfl
    · cases h

/-- Everything `BlockRead` can answer (R43). -/
theorem Memory.blockRead_inv {m : Memory} {addr len : Nat} {bytes : List Byte} (h : m.blockRead addr len = .ok bytes) :
    m.checkSpan addr len = .ok () ∧ bytes = m.bytesAt addr len := by
  unfold Memory.blockRead at h
  split at h
  · cases h
  · rename_i hc
    cases h; exact ⟨hc, rfl⟩

/-- Everything `BlockWrite` can answer (R44). -/
theorem Memory.blockWrite_inv {m m' : Memory} {addr : Nat} {bytes : List Byte} (h : m.blockWrite addr bytes = .ok m') :
    m.checkSpan addr bytes.length = .ok () ∧ m' = m.setBytes addr bytes := by
  unfold Memory.blockWrite at h
  split at h
  · cases h
  · rename_i hc
    cases h; exact ⟨hc, rfl⟩

theorem Memory.blockRead_of_ok {m : Memory} {addr len : Nat} (h : m.checkSpan addr len = .ok ()) :
    m.blockRead addr len = .ok (m.bytesAt addr len) := by simp [Memory.blockRead, h]

theorem Memory.blockRead_of_error {m : Memory} {addr len : Nat} {e : Fault} (h : m.checkSpan addr len = .error e) :
    m.blockRead addr len = .error e := by simp [Memory.blockRead, h]

theorem Memory.blockWrite_of_ok {m : Memory} {addr : Nat} {bytes : List Byte}
    (h : m.checkSpan addr bytes.length = .ok ()) : m.blockWrite addr bytes = .ok (m.setBytes addr bytes) := by
  simp [Memory.blockWrite, h]

/-! ## Bytes of words -/

theorem beWord_one (a : Byte) : beWord [a] = a.setWidth 32 := by
  simp [beWord]

/-- Appending one byte at the low end. -/
theorem shiftLeft_or_byte {n : Nat} (x : BitVec n) (b : Byte) :
    (x.setWidth 32 <<< 8) ||| b.setWidth 32 = ((x ++ b).setWidth 32 : Word) := by
  apply BitVec.eq_of_getLsbD_eq
  intro i hi
  simp only [BitVec.getLsbD_or, BitVec.getLsbD_shiftLeft, BitVec.getLsbD_setWidth, BitVec.getLsbD_append]
  by_cases h : i < 8
  · simp [h, hi]
  · simp [h, hi, show i - 8 < 32 by omega, BitVec.getLsbD_of_ge b i (by omega)]

theorem beWord_two (a b : Byte) : beWord [a, b] = (a ++ b).setWidth 32 := by
  have h0 : (0#32 <<< 8 ||| a.setWidth 32) = (a.setWidth 32 : Word) := by simp
  simp only [beWord, List.foldl_cons, List.foldl_nil, h0]
  rw [shiftLeft_or_byte]

theorem beWord_four (a b c d : Byte) : beWord [a, b, c, d] = a ++ b ++ c ++ d := by
  have h0 : (0#32 <<< 8 ||| a.setWidth 32) = (a.setWidth 32 : Word) := by simp
  simp only [beWord, List.foldl_cons, List.foldl_nil, h0]
  rw [shiftLeft_or_byte, shiftLeft_or_byte, shiftLeft_or_byte]
  simp

theorem beWord_bytesAt_four (m : Memory) (a : Nat) : beWord (m.bytesAt a 4) = m.wordAt a := by
  rw [Memory.bytesAt_four, beWord_four]; rfl

@[simp] theorem beBytes_length (n : Nat) (v : Word) : (beBytes n v).length = n := by
  induction n with
  | zero => rfl
  | succ n ih => simp [beBytes, ih]

/-- The bytes of a word, most significant first (R42, R50). -/
theorem getElem_beBytes {n : Nat} (hn : n ≤ 4) (v : Word) (i : Nat) (h : i < (beBytes n v).length) :
    (beBytes n v)[i] = byteOf v (4 - n + i) := by
  induction n generalizing i with
  | zero => simp at h
  | succ n ih =>
    cases i with
    | zero =>
      simp only [beBytes, List.getElem_cons_zero, byteOf]
      rw [show 24 - 8 * (4 - (n + 1) + 0) = 8 * n by omega]
      apply BitVec.eq_of_getLsbD_eq
      intro j hj
      simp [hj]
    | succ i =>
      simp only [beBytes, List.getElem_cons_succ]
      rw [ih (by omega) i (by simpa using h)]
      congr 1; omega

/-- A word is its four bytes. -/
theorem beWord_beBytes (v : Word) : beWord (beBytes 4 v) = v := by
  have h : beBytes 4 v = [byteOf v 0, byteOf v 1, byteOf v 2, byteOf v 3] := by
    apply List.ext_getElem (by simp)
    intro i h1 h2
    rw [getElem_beBytes (by omega)]
    simp only [beBytes_length] at h1
    match i, h1 with
    | 0, _ | 1, _ | 2, _ | 3, _ => rfl
  rw [h, beWord_four]
  apply BitVec.eq_of_getLsbD_eq
  intro i hi
  simp only [byteOf, BitVec.getLsbD_append, BitVec.getLsbD_extractLsb']
  split
  · simp_all
  · split
    · simp_all
    · split
      · rename_i h1 h2 h3
        simp only [h3, decide_true, Bool.true_and]
        congr 1; omega
      · have h4 : i - 8 - 8 - 8 < 8 := by omega
        simp only [h4, decide_true, Bool.true_and]
        congr 1; omega

/-! ## The CPU's access primitives -/

theorem alignedBase_add_byteOffset (ea : Word) : alignedBase ea + byteOffset ea = ea.toNat := by
  unfold alignedBase byteOffset; omega

theorem alignedBase_mod (ea : Word) : alignedBase ea % 4 = 0 := by
  unfold alignedBase; omega

theorem byteOffset_lt (ea : Word) : byteOffset ea < 4 := Nat.mod_lt _ (by omega)

theorem alignedBase_of_aligned {ea : Word} (h : ea.toNat % 4 = 0) : alignedBase ea = ea.toNat := by
  unfold alignedBase; omega

theorem take_drop_bytesAt (m : Memory) (a len k n : Nat) (h : k + n ≤ len) :
    ((m.bytesAt a len).drop k).take n = m.bytesAt (a + k) n := by
  apply List.ext_getElem
  · simp; omega
  · intro i h1 h2
    simp only [List.getElem_take, List.getElem_drop, Memory.getElem_bytesAt]
    congr 1; omega

theorem Memory.checkSpan_word {m : Memory} (hb : m.blockSize = 4) {a : Nat} (ha : a % 4 = 0) (hin : a + 4 ≤ m.size) :
    m.checkSpan a 4 = .ok () :=
  Memory.checkSpan_ok (by rw [hb]; exact ha) (by rw [hb]; omega) hin

theorem Memory.checkSpan_word_outside {m : Memory} (hb : m.blockSize = 4) {a : Nat} (ha : a % 4 = 0)
    (hout : m.size < a + 4) : m.checkSpan a 4 = .error .invalidAddress :=
  Memory.checkSpan_outside (by rw [hb]; exact ha) (by rw [hb]; omega) hout

/-- `MemRead` within the store reads the addressed bytes, big-endian (R49). -/
theorem Memory.memRead_inside {m : Memory} (hb : m.blockSize = 4) {ea : Word} (hin : alignedBase ea + 4 ≤ m.size)
    {n : Nat} (hn : byteOffset ea + n ≤ 4) : m.memRead ea n = .ok (beWord (m.bytesAt ea.toNat n)) := by
  unfold Memory.memRead
  rw [Memory.blockRead_of_ok (Memory.checkSpan_word hb (alignedBase_mod ea) hin)]
  simp only [take_drop_bytesAt m _ _ _ _ hn, alignedBase_add_byteOffset]

/-- `MemRead` whose containing word is not within the store (R49). -/
theorem Memory.memRead_outside {m : Memory} (hb : m.blockSize = 4) {ea : Word} (hout : m.size < alignedBase ea + 4)
    (n : Nat) : m.memRead ea n = .error .invalidAddress := by
  unfold Memory.memRead
  rw [Memory.blockRead_of_error (Memory.checkSpan_word_outside hb (alignedBase_mod ea) hout)]

/-- `MemRead` fails only as the block read of the containing word does. -/
theorem Memory.memRead_error {m : Memory} {ea : Word} {n : Nat} {e : Fault} (h : m.memRead ea n = .error e) :
    e = .invalidAlignment ∨ e = .invalidAddress := by
  unfold Memory.memRead Memory.blockRead at h
  split at h
  · rename_i hc
    split at hc
    · rename_i hs
      cases hc; cases h
      exact Memory.checkSpan_error hs
    · cases hc
  · cases h

/-- The aligned word that contains the effective address (R149, R150). -/
theorem Memory.readContaining_inside {m : Memory} (hb : m.blockSize = 4) {ea : Word}
    (hin : alignedBase ea + 4 ≤ m.size) : m.readContaining ea = .ok (m.wordAt (alignedBase ea)) := by
  have hle : byteOffset ea ≤ ea.toNat := Nat.mod_le _ _
  have hlt : byteOffset ea < 2 ^ 32 := Nat.lt_of_lt_of_le (byteOffset_lt ea) (by decide)
  have h1 : (ea - BitVec.ofNat 32 (byteOffset ea)).toNat = alignedBase ea := by
    have := ea.isLt
    have := alignedBase_add_byteOffset ea
    rw [BitVec.toNat_sub, BitVec.toNat_ofNat, Nat.mod_eq_of_lt hlt]
    omega
  have hal : (ea - BitVec.ofNat 32 (byteOffset ea)).toNat % 4 = 0 := by rw [h1]; exact alignedBase_mod ea
  have h2 : alignedBase (ea - BitVec.ofNat 32 (byteOffset ea)) = alignedBase ea := by
    rw [alignedBase_of_aligned hal, h1]
  have h3 : byteOffset (ea - BitVec.ofNat 32 (byteOffset ea)) = 0 := hal
  unfold Memory.readContaining
  rw [Memory.memRead_inside hb (by rw [h2]; exact hin) (by rw [h3]), h1, beWord_bytesAt_four]

theorem Memory.readContaining_outside {m : Memory} (hb : m.blockSize = 4) {ea : Word}
    (hout : m.size < alignedBase ea + 4) : m.readContaining ea = .error .invalidAddress := by
  have hle : byteOffset ea ≤ ea.toNat := Nat.mod_le _ _
  have hlt : byteOffset ea < 2 ^ 32 := Nat.lt_of_lt_of_le (byteOffset_lt ea) (by decide)
  have h1 : (ea - BitVec.ofNat 32 (byteOffset ea)).toNat = alignedBase ea := by
    have := ea.isLt
    have := alignedBase_add_byteOffset ea
    rw [BitVec.toNat_sub, BitVec.toNat_ofNat, Nat.mod_eq_of_lt hlt]
    omega
  have h2 : alignedBase (ea - BitVec.ofNat 32 (byteOffset ea)) = alignedBase ea := by
    rw [alignedBase_of_aligned (by rw [h1]; exact alignedBase_mod ea), h1]
  exact Memory.memRead_outside hb (by rw [h2]; exact hout) 4

theorem spliceBytes_length {bytes new : List Byte} {k : Nat} (h : k + new.length ≤ bytes.length) :
    (spliceBytes bytes k new).length = bytes.length := by
  simp [spliceBytes]; omega

theorem getElem_spliceBytes {bytes new : List Byte} {k : Nat} (h : k + new.length ≤ bytes.length) (i : Nat)
    (hi : i < (spliceBytes bytes k new).length) :
    (spliceBytes bytes k new)[i] =
      if hn : k ≤ i ∧ i - k < new.length then new[i - k]'hn.2
      else bytes[i]'(spliceBytes_length h ▸ hi) := by
  have hlen : i < bytes.length := spliceBytes_length h ▸ hi
  unfold spliceBytes at hi ⊢
  rw [List.getElem_append]
  split
  · rename_i h1
    rw [List.getElem_append]
    simp only [List.length_append, List.length_take] at h1
    split
    · rename_i h2
      simp only [List.length_take] at h2
      have hn : ¬(k ≤ i ∧ i - k < new.length) := by omega
      simp only [dif_neg hn, List.getElem_take]
    · rename_i h2
      simp only [List.length_take] at h2
      have hn : k ≤ i ∧ i - k < new.length := by omega
      rw [dif_pos hn]
      congr 1
      simp only [List.length_take]; omega
  · rename_i h1
    simp only [List.length_append, List.length_take] at h1
    have hn : ¬(k ≤ i ∧ i - k < new.length) := by omega
    rw [dif_neg hn, List.getElem_drop]
    congr 1
    simp only [List.length_append, List.length_take]; omega

/-- What a byte reads after `n` bytes of `v` were stored at `ea` (R50). -/
def storedByte (m : Memory) (ea n : Nat) (v : Word) (x : Nat) : Byte :=
  if ea ≤ x ∧ x < ea + n then byteOf v (4 - n + (x - ea)) else m.byteAt x

/-- `MemWrite` within the store (R50): the addressed bytes change and nothing else does. -/
theorem Memory.memWrite_inside {m : Memory} (hb : m.blockSize = 4) {ea : Word} (hin : alignedBase ea + 4 ≤ m.size)
    {n : Nat} (hn : byteOffset ea + n ≤ 4) (v : Word) :
    ∃ m', m.memWrite ea n v = .ok m' ∧ m'.size = m.size ∧ m'.blockSize = m.blockSize ∧
      ∀ x, m'.byteAt x = storedByte m ea.toNat n v x := by
  have hsum := alignedBase_add_byteOffset ea
  have hlen : byteOffset ea + (beBytes n v).length ≤ (m.bytesAt (alignedBase ea) 4).length := by simpa using hn
  have hlen4 : (spliceBytes (m.bytesAt (alignedBase ea) 4) (byteOffset ea) (beBytes n v)).length = 4 := by
    rw [spliceBytes_length hlen]; simp
  have hc := Memory.checkSpan_word hb (alignedBase_mod ea) hin
  refine ⟨m.setBytes (alignedBase ea) (spliceBytes (m.bytesAt (alignedBase ea) 4) (byteOffset ea) (beBytes n v)),
    ?_, by simp, by simp, fun x => ?_⟩
  · unfold Memory.memWrite
    rw [Memory.blockRead_of_ok hc]
    exact Memory.blockWrite_of_ok (by rw [hlen4]; exact hc)
  · rw [Memory.byteAt_setBytes]
    unfold storedByte
    by_cases hx : alignedBase ea ≤ x ∧ x - alignedBase ea < 4
    · rw [dif_pos (by rw [hlen4]; exact hx), getElem_spliceBytes hlen]
      by_cases hy : ea.toNat ≤ x ∧ x < ea.toNat + n
      · rw [if_pos hy, dif_pos (by simp; omega), getElem_beBytes (by omega)]
        congr 1; omega
      · rw [if_neg hy, dif_neg (by simp; omega), Memory.getElem_bytesAt]
        congr 1; omega
    · rw [dif_neg (by rw [hlen4]; exact hx), if_neg (by omega)]

theorem Memory.memWrite_outside {m : Memory} (hb : m.blockSize = 4) {ea : Word} (hout : m.size < alignedBase ea + 4)
    (n : Nat) (v : Word) : m.memWrite ea n v = .error .invalidAddress := by
  unfold Memory.memWrite
  rw [Memory.blockRead_of_error (Memory.checkSpan_word_outside hb (alignedBase_mod ea) hout)]

/-- Everything a `MemWrite` that succeeds can have done: bytes of one span within the store were written. -/
theorem Memory.memWrite_inv {m m' : Memory} {ea : Word} {n : Nat} {v : Word} (h : m.memWrite ea n v = .ok m') :
    ∃ a bytes, m' = m.setBytes a bytes ∧ a + bytes.length ≤ m.size := by
  unfold Memory.memWrite at h
  split at h
  · cases h
  · obtain ⟨hc, rfl⟩ := Memory.blockWrite_inv h
    exact ⟨_, _, rfl, (Memory.checkSpan_inv hc).2.2⟩

theorem Memory.memWrite_error {m : Memory} {ea : Word} {n : Nat} {v : Word} {e : Fault}
    (h : m.memWrite ea n v = .error e) : e = .invalidAlignment ∨ e = .invalidAddress := by
  unfold Memory.memWrite at h
  split at h
  · rename_i hc
    unfold Memory.blockRead at hc
    split at hc
    · rename_i hs
      cases hc; cases h
      exact Memory.checkSpan_error hs
    · cases hc
  · unfold Memory.blockWrite at h
    split at h
    · rename_i hs
      cases h
      exact Memory.checkSpan_error hs
    · cases h

end Sys2Proof.Machine
end

