-- ==== Sys2Proof/Laws/Ops.lean ====
section
/-!
SUPPORT. One lemma per shared operation that says everything it can answer: write-back, branches, the link, loads,
stores, fetch. The provers cite these instead of unfolding the operations.
-/

namespace Sys2Proof.Machine

/-! ## Frames of the register-only operations -/

theorem SameMemory.rfl_of {s t : State} (h : t.mem = s.mem) : SameMemory s t := by
  unfold SameMemory; rw [h]; exact ⟨rfl, rfl, fun _ => rfl⟩

/-- `finish` always answers, with the register result and nothing else. -/
theorem finish_result (rd : RegIdx) (v : Word) (s : State) : ∃ t, finish rd v s = .next t ∧ RegResult s t rd v := by
  refine ⟨_, rfl, fun r => ?_, ⟨?_, ?_⟩, ⟨?_, ?_⟩, SameMemory.rfl_of ?_, ⟨?_, ?_⟩, ?_⟩ <;>
    simp [State.readReg_writeReg]

theorem finish_inv {rd : RegIdx} {v : Word} {s t : State} (h : finish rd v s = .next t) :
    t = (s.writeReg rd v).nextSeq := by cases h; rfl

/-- `finishChecked` writes the word, or raises the failure and writes nothing. -/
theorem finishChecked_ok (rd : RegIdx) (v : Word) (s : State) : finishChecked rd (.ok v) s = finish rd v s := rfl

theorem finishChecked_error (rd : RegIdx) (e : Fault) (s : State) : finishChecked rd (.error e) s = .fault e := rfl

/-- `finishHiLo` always answers, with HI and LO written and nothing else. -/
theorem finishHiLo_result (hl : Word × Word) (s : State) :
    ∃ t, finishHiLo hl s = .next t ∧ HiLoResult s t hl.1 hl.2 :=
  ⟨_, rfl, rfl, rfl, fun _ => rfl, ⟨rfl, rfl⟩, SameMemory.rfl_of rfl, ⟨rfl, rfl⟩, rfl⟩

/-- `branch` always answers. -/
theorem branch_result (taken : Bool) (off : Imm16) (s : State) :
    ∃ t, branch taken off s = .next t ∧ JumpResult s t (branchNpc taken s.npc off) :=
  ⟨_, rfl, ⟨rfl, rfl⟩, fun _ => rfl, ⟨rfl, rfl⟩, SameMemory.rfl_of rfl, ⟨rfl, rfl⟩, rfl⟩

theorem redirect_result (target : Word) (s : State) : JumpResult s (s.redirect target) target :=
  ⟨⟨rfl, rfl⟩, fun _ => rfl, ⟨rfl, rfl⟩, SameMemory.rfl_of rfl, ⟨rfl, rfl⟩, rfl⟩

theorem link_redirect_result (target : Word) (s : State) : LinkResult s (s.link.redirect target) target := by
  refine ⟨⟨?_, ?_⟩, fun r => ?_, ⟨?_, ?_⟩, SameMemory.rfl_of ?_, ⟨?_, ?_⟩, ?_⟩ <;> simp [State.readReg_link]

/-- `branchLink` always answers: linked when taken or by the parameter, not linked otherwise (R99). -/
theorem branchLink_result (taken : Bool) (off : Imm16) (s : State) :
    ∃ t, branchLink taken off s = .next t ∧
      ((taken || s.params.linkOnNotTaken) = true → LinkResult s t (branchNpc taken s.npc off)) ∧
      ((taken || s.params.linkOnNotTaken) = false → JumpResult s t (branchNpc taken s.npc off)) := by
  by_cases h : (taken || s.params.linkOnNotTaken) = true
  · refine ⟨_, rfl, fun _ => ?_, fun h' => absurd h' (by simp [h])⟩
    simp only [h, if_true]
    exact link_redirect_result _ _
  · refine ⟨_, rfl, fun h' => absurd h' h, fun _ => ?_⟩
    simp only [h]
    exact redirect_result _ _

/-! ## Signed addition -/

theorem sadd_unchecked (a b : Word) : sadd false a b = .ok (a + b) := rfl

theorem sadd_fits {a b : Word} (check : Bool) (h : fitsS32 (a.toInt + b.toInt) = true) : sadd check a b = .ok (a + b) := by
  simp [sadd, h]

theorem sadd_overflow {a b : Word} (h : fitsS32 (a.toInt + b.toInt) = false) :
    sadd true a b = .error .arithmeticOverflow := by simp [sadd, h]

/-- Everything `sadd` can answer. -/
theorem sadd_inv {check : Bool} {a b : Word} :
    (sadd check a b = .ok (a + b)) ∨ (check = true ∧ sadd check a b = .error .arithmeticOverflow) := by
  unfold sadd
  cases check <;> by_cases h : fitsS32 (a.toInt + b.toInt) = true <;> simp [h]

/-- Everything `ssub` can answer. -/
theorem ssub_inv {a b : Word} : (ssub a b = .ok (a - b)) ∨ (ssub a b = .error .arithmeticOverflow) := by
  unfold ssub
  by_cases h : fitsS32 (a.toInt - b.toInt) = true <;> simp [h]

theorem effectiveAddress_unchecked {s : State} (h : s.params.eaOverflowCheck = false) (rs : RegIdx) (imm : Imm16) :
    effectiveAddress rs imm s = .ok (s.readReg rs + sext16 imm) := by
  unfold effectiveAddress; rw [h]; rfl

/-! ## Loads and stores -/

/-- Everything a load can answer: a failure of its EA, alignment or memory read, or `rt` and `lmd` written. -/
theorem load_cases (rt rs : RegIdx) (imm : Imm16) (al : Nat) (value : Word → Except Fault Word) (s : State) :
    (∃ e, effectiveAddress rs imm s = .error e ∧ load rt rs imm al value s = .fault e) ∨
    (∃ ea, effectiveAddress rs imm s = .ok ea ∧
      ((ea.toNat % al ≠ 0 ∧ load rt rs imm al value s = .fault .invalidAlignment) ∨
       (ea.toNat % al = 0 ∧
        ((∃ e, value ea = .error e ∧ load rt rs imm al value s = .fault e) ∨
         (∃ w, value ea = .ok w ∧
           load rt rs imm al value s = .next (({ s with lmd := w }.writeReg rt w).nextSeq)))))) := by
  unfold load
  cases h1 : effectiveAddress rs imm s with
  | error e => exact .inl ⟨e, rfl, rfl⟩
  | ok ea =>
    refine .inr ⟨ea, rfl, ?_⟩
    by_cases h2 : ea.toNat % al = 0
    · refine .inr ⟨h2, ?_⟩
      simp only [checkAligned, h2, ne_eq, not_true_eq_false, if_false]
      cases h3 : value ea with
      | error e => exact .inl ⟨e, rfl, rfl⟩
      | ok w => exact .inr ⟨w, rfl, rfl⟩
    · refine .inl ⟨h2, ?_⟩
      simp only [checkAligned, ne_eq, h2, not_false_eq_true, if_true]; rfl

/-- A load that reaches memory and reads `w` completes. -/
theorem load_result {rt rs : RegIdx} {imm : Imm16} {al : Nat} {value : Word → Except Fault Word} {s : State} {ea w : Word}
    (hea : effectiveAddress rs imm s = .ok ea) (hal : ea.toNat % al = 0) (hv : value ea = .ok w) :
    ∃ t, load rt rs imm al value s = .next t ∧ LoadResult s t rt w := by
  refine ⟨(({ s with lmd := w }.writeReg rt w).nextSeq), ?_, fun r => ?_, ⟨?_, ?_⟩, ⟨?_, ?_⟩, SameMemory.rfl_of ?_,
    ⟨?_, ?_⟩, ?_⟩
  · simp [load, hea, checkAligned, hal, hv, finish]
  all_goals simp [State.readReg_writeReg]
  rfl

theorem load_misaligned {rt rs : RegIdx} {imm : Imm16} {al : Nat} {value : Word → Except Fault Word} {s : State}
    {ea : Word} (hea : effectiveAddress rs imm s = .ok ea) (hal : ea.toNat % al ≠ 0) :
    load rt rs imm al value s = .fault .invalidAlignment := by
  simp [load, hea, checkAligned, hal, raise]

theorem load_unreadable {rt rs : RegIdx} {imm : Imm16} {al : Nat} {value : Word → Except Fault Word} {s : State}
    {ea : Word} {e : Fault} (hea : effectiveAddress rs imm s = .ok ea) (hal : ea.toNat % al = 0)
    (hv : value ea = .error e) : load rt rs imm al value s = .fault e := by
  simp [load, hea, checkAligned, hal, hv, raise]

/-- Everything a store can answer: a failure of its EA, alignment or memory write, or memory written. -/
theorem store_cases (rs : RegIdx) (imm : Imm16) (n : Nat) (v : Word) (s : State) :
    (∃ e, effectiveAddress rs imm s = .error e ∧ store rs imm n v s = .fault e) ∨
    (∃ ea, effectiveAddress rs imm s = .ok ea ∧
      ((ea.toNat % n ≠ 0 ∧ store rs imm n v s = .fault .invalidAlignment) ∨
       (ea.toNat % n = 0 ∧
        ((∃ e, s.mem.memWrite ea n v = .error e ∧ store rs imm n v s = .fault e) ∨
         (∃ m, s.mem.memWrite ea n v = .ok m ∧ store rs imm n v s = .next ({ s with mem := m }.nextSeq)))))) := by
  unfold store
  cases h1 : effectiveAddress rs imm s with
  | error e => exact .inl ⟨e, rfl, rfl⟩
  | ok ea =>
    refine .inr ⟨ea, rfl, ?_⟩
    by_cases h2 : ea.toNat % n = 0
    · refine .inr ⟨h2, ?_⟩
      simp only [checkAligned, h2, ne_eq, not_true_eq_false, if_false]
      cases h3 : s.mem.memWrite ea n v with
      | error e => exact .inl ⟨e, rfl, rfl⟩
      | ok w => exact .inr ⟨w, rfl, rfl⟩
    · refine .inl ⟨h2, ?_⟩
      simp only [checkAligned, ne_eq, h2, not_false_eq_true, if_true]; rfl

/-- An aligned store within the store completes: the addressed bytes change and nothing else does. -/
theorem store_result {rs : RegIdx} {imm : Imm16} {n : Nat} {v : Word} {s : State} {ea : Word}
    (hea : effectiveAddress rs imm s = .ok ea) (hal : ea.toNat % n = 0) (hb : s.mem.blockSize = 4)
    (hin : alignedBase ea + 4 ≤ s.mem.size) (hn : byteOffset ea + n ≤ 4) :
    ∃ t, store rs imm n v s = .next t ∧ StoreResult s t ea.toNat n v := by
  obtain ⟨m', hw, hsize, hblock, hbyte⟩ := Memory.memWrite_inside hb hin hn v
  refine ⟨({ s with mem := m' }.nextSeq), ?_, hbyte, hsize, hblock, fun _ => rfl, ⟨rfl, rfl⟩, ⟨rfl, rfl⟩, ⟨rfl, rfl⟩,
    rfl⟩
  simp [store, hea, checkAligned, hal, hw]

theorem store_misaligned {rs : RegIdx} {imm : Imm16} {n : Nat} {v : Word} {s : State} {ea : Word}
    (hea : effectiveAddress rs imm s = .ok ea) (hal : ea.toNat % n ≠ 0) :
    store rs imm n v s = .fault .invalidAlignment := by
  simp [store, hea, checkAligned, hal, raise]

theorem store_unwritable {rs : RegIdx} {imm : Imm16} {n : Nat} {v : Word} {s : State} {ea : Word} {e : Fault}
    (hea : effectiveAddress rs imm s = .ok ea) (hal : ea.toNat % n = 0) (hw : s.mem.memWrite ea n v = .error e) :
    store rs imm n v s = .fault e := by
  simp [store, hea, checkAligned, hal, hw, raise]

/-! ## Fetch and the step -/

/-- Fetch at an aligned `pc` within the store (R52, R85). -/
theorem fetch_inside {s : State} (hb : s.mem.blockSize = 4) (hal : s.pc.toNat % 4 = 0)
    (hin : s.pc.toNat + 4 ≤ s.mem.size) : fetch s = .ok (s.mem.wordAt s.pc.toNat) := by
  unfold fetch
  rw [Memory.blockRead_of_ok (Memory.checkSpan_word hb hal hin)]
  simp only [beWord_bytesAt_four]

theorem fetch_misaligned {s : State} (hb : s.mem.blockSize = 4) (hal : s.pc.toNat % 4 ≠ 0) :
    fetch s = .error .invalidAlignment := by
  unfold fetch
  rw [Memory.blockRead_of_error (Memory.checkSpan_misaligned (.inl (by rw [hb]; exact hal)))]

theorem fetch_outside {s : State} (hb : s.mem.blockSize = 4) (hal : s.pc.toNat % 4 = 0)
    (hout : s.mem.size < s.pc.toNat + 4) : fetch s = .error .invalidAddress := by
  unfold fetch
  rw [Memory.blockRead_of_error (Memory.checkSpan_word_outside hb hal hout)]

theorem fetch_error {s : State} {e : Fault} (h : fetch s = .error e) : e = .invalidAlignment ∨ e = .invalidAddress := by
  unfold fetch Memory.blockRead at h
  split at h
  · rename_i hc
    split at hc
    · rename_i hs
      cases hc; cases h
      exact Memory.checkSpan_error hs
    · cases hc
  · cases h

/-- Everything a step can answer. -/
theorem step_cases (s : State) :
    (s.mem.blockSize ≠ 4 ∧ step s = .refused .blockSizeNotFour) ∨
    (s.mem.blockSize = 4 ∧
      ((∃ e, fetch s = .error e ∧ step s = .fault e) ∨
       (∃ w, fetch s = .ok w ∧
         ((∃ e, decode w = .error e ∧ step s = .fault .invalidInstruction) ∨
          (∃ i, decode w = .ok i ∧ step s = exec i { s with ir := w }))))) := by
  unfold step Config.cpuBlockSize
  by_cases hb : s.mem.blockSize = 4
  · refine .inr ⟨hb, ?_⟩
    simp only [hb, ne_eq, not_true_eq_false, if_false]
    cases h1 : fetch s with
    | error e => exact .inl ⟨e, rfl, rfl⟩
    | ok w =>
      refine .inr ⟨w, rfl, ?_⟩
      cases h2 : decode w with
      | error e => exact .inl ⟨e, rfl, by simp only [h2]; rfl⟩
      | ok i => exact .inr ⟨i, rfl, by simp only [h2]⟩
  · refine .inl ⟨hb, ?_⟩
    simp only [hb, ne_eq, not_false_eq_true, if_true]

/-- Storing a table word puts it where fetch reads it. -/
theorem fetch_withFetchWord {s : State} (hb : s.mem.blockSize = 4) (hal : s.pc.toNat % 4 = 0)
    (hin : s.pc.toNat + 4 ≤ s.mem.size) (w : Nat) :
    fetch (s.withFetchWord 32 w) = .ok (BitVec.ofNat 32 (w % 2 ^ 32)) := by
  have h := fetch_inside (s := s.withFetchWord 32 w) (by simpa [State.withFetchWord] using hb) hal
    (by simpa [State.withFetchWord] using hin)
  rw [h, ← beWord_bytesAt_four]
  rw [← beWord_beBytes (BitVec.ofNat 32 (w % 2 ^ 32))]
  congr 2
  apply List.ext_getElem (by simp)
  intro i h1 h2
  rw [Memory.getElem_bytesAt]
  simp only [State.withFetchWord, tableWordBytes]
  rw [Memory.byteAt_setBytes, dif_pos (by simp at h2 ⊢; omega)]
  congr 1; omega

end Sys2Proof.Machine
end

