-- ==== Sys2Proof/Laws/Decode.lean ====
section
/-!
SUPPORT. The fields of R-type, I-type and J-type words (30_encoding.md R66 to R68), and that every word is the
concatenation of its fields.
-/

namespace Sys2Proof

/-! ## Fields of a concatenation -/

theorem extract_append_high {n m : Nat} (x : BitVec n) (y : BitVec m) (start len : Nat) (h : m ≤ start) :
    (x ++ y).extractLsb' start len = x.extractLsb' (start - m) len := by
  apply BitVec.eq_of_getLsbD_eq
  intro i hi
  simp only [BitVec.getLsbD_extractLsb', BitVec.getLsbD_append, hi, decide_true, Bool.true_and]
  rw [if_neg (by omega)]; congr 1; omega

theorem extract_append_low {n m : Nat} (x : BitVec n) (y : BitVec m) (start len : Nat) (h : start + len ≤ m) :
    (x ++ y).extractLsb' start len = y.extractLsb' start len := by
  apply BitVec.eq_of_getLsbD_eq
  intro i hi
  simp only [BitVec.getLsbD_extractLsb', BitVec.getLsbD_append, hi, decide_true, Bool.true_and]
  rw [if_pos (by omega)]

theorem extract_all {n : Nat} (x : BitVec n) : x.extractLsb' 0 n = x := by
  apply BitVec.eq_of_getLsbD_eq
  intro i hi
  simp [hi]

/-! ## R-type words (R66) -/

section
variable (rs rt rd : RegIdx) (shamt : Shamt) (funct : BitVec 6)

@[simp] theorem fieldsOf_rWord_opcode : (fieldsOf (rWord rs rt rd shamt funct)).opcode = 0x00#6 := by
  unfold fieldsOf rWord
  simp (disch := decide) only [extract_append_high, Nat.reduceSub, extract_all]
@[simp] theorem fieldsOf_rWord_rs : (fieldsOf (rWord rs rt rd shamt funct)).rs = rs := by
  unfold fieldsOf rWord
  simp (disch := decide) only [extract_append_high, extract_append_low, Nat.reduceSub, extract_all]
@[simp] theorem fieldsOf_rWord_rt : (fieldsOf (rWord rs rt rd shamt funct)).rt = rt := by
  unfold fieldsOf rWord
  simp (disch := decide) only [extract_append_high, extract_append_low, Nat.reduceSub, extract_all]
@[simp] theorem fieldsOf_rWord_rd : (fieldsOf (rWord rs rt rd shamt funct)).rd = rd := by
  unfold fieldsOf rWord
  simp (disch := decide) only [extract_append_high, extract_append_low, Nat.reduceSub, extract_all]
@[simp] theorem fieldsOf_rWord_shamt : (fieldsOf (rWord rs rt rd shamt funct)).shamt = shamt := by
  unfold fieldsOf rWord
  simp (disch := decide) only [extract_append_high, extract_append_low, Nat.reduceSub, extract_all]
@[simp] theorem fieldsOf_rWord_funct : (fieldsOf (rWord rs rt rd shamt funct)).funct = funct := by
  unfold fieldsOf rWord
  simp (disch := decide) only [extract_append_low, extract_all]
end

/-! ## I-type words (R67) -/

section
variable (opcode : BitVec 6) (rs rt : RegIdx) (imm : Imm16)

@[simp] theorem fieldsOf_iWord_opcode : (fieldsOf (iWord opcode rs rt imm)).opcode = opcode := by
  unfold fieldsOf iWord
  simp (disch := decide) only [extract_append_high, Nat.reduceSub, extract_all]
@[simp] theorem fieldsOf_iWord_rs : (fieldsOf (iWord opcode rs rt imm)).rs = rs := by
  unfold fieldsOf iWord
  simp (disch := decide) only [extract_append_high, extract_append_low, Nat.reduceSub, extract_all]
@[simp] theorem fieldsOf_iWord_rt : (fieldsOf (iWord opcode rs rt imm)).rt = rt := by
  unfold fieldsOf iWord
  simp (disch := decide) only [extract_append_high, extract_append_low, Nat.reduceSub, extract_all]
@[simp] theorem fieldsOf_iWord_imm : (fieldsOf (iWord opcode rs rt imm)).imm = imm := by
  unfold fieldsOf iWord
  simp (disch := decide) only [extract_append_low, extract_all]
end

/-! ## J-type words (R68) -/

section
variable (opcode : BitVec 6) (target : Target26)

@[simp] theorem fieldsOf_jWord_opcode : (fieldsOf (jWord opcode target)).opcode = opcode := by
  unfold fieldsOf jWord
  simp (disch := decide) only [extract_append_high, Nat.reduceSub, extract_all]
@[simp] theorem fieldsOf_jWord_target : (fieldsOf (jWord opcode target)).target = target := by
  unfold fieldsOf jWord
  simp (disch := decide) only [extract_append_low, extract_all]
end

/-! ## A word is its fields -/

theorem append_extract {n : Nat} (w : BitVec n) (start l1 l2 : Nat) :
    w.extractLsb' (start + l2) l1 ++ w.extractLsb' start l2 = w.extractLsb' start (l1 + l2) := by
  apply BitVec.eq_of_getLsbD_eq
  intro i hi
  simp only [BitVec.getLsbD_append, BitVec.getLsbD_extractLsb', hi, decide_true, Bool.true_and]
  by_cases h : i < l2
  · simp [h]
  · rw [if_neg h, decide_eq_true (show i - l2 < l1 by omega), Bool.true_and]
    congr 1; omega

theorem fields_rWord (w : Word) : (fieldsOf w).opcode ++ (fieldsOf w).rs ++ (fieldsOf w).rt ++ (fieldsOf w).rd
    ++ (fieldsOf w).shamt ++ (fieldsOf w).funct = w := by
  simp only [fieldsOf]
  rw [append_extract w 21 6 5, append_extract w 16 11 5, append_extract w 11 16 5, append_extract w 6 21 5,
    append_extract w 0 26 6]
  exact extract_all w

theorem fields_iWord (w : Word) :
    iWord (fieldsOf w).opcode (fieldsOf w).rs (fieldsOf w).rt (fieldsOf w).imm = w := by
  simp only [fieldsOf, iWord]
  rw [append_extract w 21 6 5, append_extract w 16 11 5, append_extract w 0 16 16]
  exact extract_all w

theorem fields_jWord (w : Word) : jWord (fieldsOf w).opcode (fieldsOf w).target = w := by
  simp only [fieldsOf, jWord]
  rw [append_extract w 0 6 26]
  exact extract_all w

/-! ## The masks of spec/opcode_table.json on R-, I- and J-type words -/

theorem append_and {n m : Nat} (a c : BitVec n) (b d : BitVec m) : (a ++ b) &&& (c ++ d) = (a &&& c) ++ (b &&& d) := by
  apply BitVec.eq_of_getLsbD_eq
  intro i _
  simp only [BitVec.getLsbD_and, BitVec.getLsbD_append]
  split <;> rfl

theorem rWord_and (rs rt rd : RegIdx) (shamt : Shamt) (funct : BitVec 6) (mrs mrt mrd : RegIdx) (msh : Shamt)
    (mfn : BitVec 6) :
    rWord rs rt rd shamt funct &&& (0x3F#6 ++ mrs ++ mrt ++ mrd ++ msh ++ mfn : Word) =
      rWord (rs &&& mrs) (rt &&& mrt) (rd &&& mrd) (shamt &&& msh) (funct &&& mfn) := by
  unfold rWord
  rw [append_and, append_and, append_and, append_and, append_and]
  rfl

theorem iWord_and (op : BitVec 6) (rs rt : RegIdx) (imm : Imm16) (mrs mrt : RegIdx) (mimm : Imm16) :
    iWord op rs rt imm &&& (0x3F#6 ++ mrs ++ mrt ++ mimm : Word) =
      iWord (op &&& 0x3F#6) (rs &&& mrs) (rt &&& mrt) (imm &&& mimm) := by
  unfold iWord
  rw [append_and, append_and, append_and]

theorem and_ones5 (x : BitVec 5) : x &&& 0x1F#5 = x := BitVec.and_allOnes
theorem and_ones6 (x : BitVec 6) : x &&& 0x3F#6 = x := BitVec.and_allOnes

section
variable (rs rt rd : RegIdx) (shamt : Shamt) (funct op : BitVec 6) (imm : Imm16) (target : Target26)

/-- The mask of SLL, SRL, SRA: opcode, rs, funct. -/
theorem rWord_mask_shift : rWord rs rt rd shamt funct &&& 0xFFE0003F#32 = rWord rs 0#5 0#5 0#5 funct := by
  have h := rWord_and rs rt rd shamt funct 0x1F#5 0#5 0#5 0#5 0x3F#6
  simp only [and_ones5, and_ones6, BitVec.and_zero] at h
  exact h

/-- The mask of the plain R-type rows: opcode, shamt, funct. -/
theorem rWord_mask_plain : rWord rs rt rd shamt funct &&& 0xFC0007FF#32 = rWord 0#5 0#5 0#5 shamt funct := by
  have h := rWord_and rs rt rd shamt funct 0#5 0#5 0#5 0x1F#5 0x3F#6
  simp only [and_ones5, and_ones6, BitVec.and_zero] at h
  exact h

/-- The mask of MFHI and MFLO: everything but rd. -/
theorem rWord_mask_move : rWord rs rt rd shamt funct &&& 0xFFFF07FF#32 = rWord rs rt 0#5 shamt funct := by
  have h := rWord_and rs rt rd shamt funct 0x1F#5 0x1F#5 0#5 0x1F#5 0x3F#6
  simp only [and_ones5, and_ones6, BitVec.and_zero] at h
  exact h

/-- The mask of MULT, MULTU, DIV, DIVU: everything but rs and rt. -/
theorem rWord_mask_mulDiv : rWord rs rt rd shamt funct &&& 0xFC00FFFF#32 = rWord 0#5 0#5 rd shamt funct := by
  have h := rWord_and rs rt rd shamt funct 0#5 0#5 0x1F#5 0x1F#5 0x3F#6
  simp only [and_ones5, and_ones6, BitVec.and_zero] at h
  exact h

/-- The mask of most I-type rows: the opcode. -/
theorem iWord_mask_opcode : iWord op rs rt imm &&& 0xFC000000#32 = iWord op 0#5 0#5 0#16 := by
  have h := iWord_and op rs rt imm 0#5 0#5 0#16
  simp only [and_ones6, BitVec.and_zero] at h
  exact h

/-- The mask of the REGIMM rows: opcode and rt. -/
theorem iWord_mask_regimm : iWord op rs rt imm &&& 0xFC1F0000#32 = iWord op 0#5 rt 0#16 := by
  have h := iWord_and op rs rt imm 0#5 0x1F#5 0#16
  simp only [and_ones5, and_ones6, BitVec.and_zero] at h
  exact h

/-- The mask of LUI: opcode and rs. -/
theorem iWord_mask_lui : iWord op rs rt imm &&& 0xFFE00000#32 = iWord op rs 0#5 0#16 := by
  have h := iWord_and op rs rt imm 0x1F#5 0#5 0#16
  simp only [and_ones5, and_ones6, BitVec.and_zero] at h
  exact h

/-- The mask of J and JAL: the opcode. -/
theorem jWord_mask_opcode : jWord op target &&& 0xFC000000#32 = jWord op 0#26 := by
  have h : jWord op target &&& (0x3F#6 ++ 0#26 : Word) = jWord (op &&& 0x3F#6) (target &&& 0#26) := append_and _ _ _ _
  simp only [and_ones6, BitVec.and_zero] at h
  exact h
end

/-- Everything `accept` can answer. -/
theorem accept_inv {b : Bool} {i i' : Instr} (h : accept b i = .ok i') : b = true ∧ i = i' := by
  unfold accept at h
  split at h
  · exact ⟨‹_›, by cases h; rfl⟩
  · cases h

end Sys2Proof
end

