-- ==== Sys2Proof/Laws/Exec.lean ====
section
/-!
SUPPORT. Everything an instruction can do, said once: the five shapes of a next state, and the failures. Claims about all
instructions cite these instead of unfolding 47 meanings.
-/

namespace Sys2Proof.Machine

/-! ## The failures of the shared operations -/

theorem finishChecked_inv {rd : RegIdx} {v : Except Fault Word} {s t : State} (h : finishChecked rd v s = .next t) :
    ∃ w, v = .ok w ∧ t = (s.writeReg rd w).nextSeq := by
  cases v with
  | error e => cases h
  | ok w => exact ⟨w, rfl, finish_inv h⟩

theorem load_inv {rt rs : RegIdx} {imm : Imm16} {al : Nat} {value : Word → Except Fault Word} {s t : State}
    (h : load rt rs imm al value s = .next t) : ∃ w, t = ({ s with lmd := w }.writeReg rt w).nextSeq := by
  rcases load_cases rt rs imm al value s with ⟨e, _, h'⟩ | ⟨ea, _, ⟨_, h'⟩ | ⟨_, ⟨e, _, h'⟩ | ⟨w, _, h'⟩⟩⟩ <;>
    rw [h'] at h <;> cases h
  exact ⟨w, rfl⟩

theorem store_inv {rs : RegIdx} {imm : Imm16} {n : Nat} {v : Word} {s t : State} (h : store rs imm n v s = .next t) :
    ∃ ea m, s.mem.memWrite ea n v = .ok m ∧ t = { s with mem := m }.nextSeq := by
  rcases store_cases rs imm n v s with ⟨e, _, h'⟩ | ⟨ea, _, ⟨_, h'⟩ | ⟨_, ⟨e, _, h'⟩ | ⟨m, hm, h'⟩⟩⟩ <;>
    rw [h'] at h <;> cases h
  exact ⟨ea, m, hm, rfl⟩

theorem branchLink_inv {taken : Bool} {off : Imm16} {s t : State} (h : branchLink taken off s = .next t) :
    t = s.redirect (branchNpc taken s.npc off) ∨ t = s.link.redirect (branchNpc taken s.npc off) := by
  cases h
  by_cases hl : (taken || s.params.linkOnNotTaken) = true
  · exact .inr (by simp [hl])
  · exact .inl (by simp [hl])

theorem effectiveAddress_error {rs : RegIdx} {imm : Imm16} {s : State} {e : Fault}
    (h : effectiveAddress rs imm s = .error e) : e = .arithmeticOverflow ∧ s.params.eaOverflowCheck = true := by
  unfold effectiveAddress at h
  rcases sadd_inv (check := s.params.eaOverflowCheck) (a := s.readReg rs) (b := sext16 imm) with h' | ⟨hc, h'⟩ <;>
    rw [h'] at h <;> cases h
  exact ⟨rfl, hc⟩

/-! ## The shapes -/

/-- The next state is that of a register write: `rd` receives `v`, a load leaves its word in `lmd` too. -/
def WriteShape (i : Instr) (s t : State) : Prop :=
  ∃ rd v l, destReg i = some rd ∧ t = ({ s with lmd := l }.writeReg rd v).nextSeq

/-- The next state is that of a multiply or divide. -/
def HiLoShape (i : Instr) (s t : State) : Prop :=
  writesHiLo i = true ∧ ∃ h l, t = { s with hi := h, lo := l }.nextSeq

/-- The next state is that of a branch or jump, with or without the link. -/
def ControlShape (i : Instr) (s t : State) : Prop :=
  isControl i = true ∧ ∃ target, t = s.redirect target ∨ (destReg i = some 31#5 ∧ t = s.link.redirect target)

/-- The next state is that of a store. -/
def StoreShape (i : Instr) (s t : State) : Prop :=
  isStore i = true ∧ ∃ ea n v m, s.mem.memWrite ea n v = .ok m ∧ t = { s with mem := m }.nextSeq

/-- Everything `exec` can answer as a next state. -/
theorem exec_shape {i : Instr} {s t : State} (h : exec i s = .next t) :
    (isControl i = false ∧ isStore i = false ∧ writesHiLo i = false ∧ WriteShape i s t) ∨
    (isControl i = false ∧ isStore i = false ∧ HiLoShape i s t) ∨
    (isStore i = false ∧ writesHiLo i = false ∧ ControlShape i s t) ∨
    (isControl i = false ∧ writesHiLo i = false ∧ StoreShape i s t) := by
  cases i
  case add | sub | addi =>
    obtain ⟨w, _, rfl⟩ := finishChecked_inv h
    exact .inl ⟨rfl, rfl, rfl, _, w, s.lmd, rfl, rfl⟩
  case lb | lbu | lw | lwl | lwr =>
    obtain ⟨w, rfl⟩ := load_inv h
    exact .inl ⟨rfl, rfl, rfl, _, w, w, rfl, rfl⟩
  case sb | sh | sw =>
    obtain ⟨ea, m, hm, rfl⟩ := store_inv h
    exact .inr (.inr (.inr ⟨rfl, rfl, rfl, ea, _, _, m, hm, rfl⟩))
  case mult | multu | div | divu =>
    cases h
    exact .inr (.inl ⟨rfl, rfl, rfl, _, _, rfl⟩)
  case beq | bne | blez | bgtz | bltz | bgez | j =>
    cases h
    exact .inr (.inr (.inl ⟨rfl, rfl, rfl, _, .inl rfl⟩))
  case bltzal | bgezal =>
    refine .inr (.inr (.inl ⟨rfl, rfl, rfl, ?_⟩))
    rcases branchLink_inv h with rfl | rfl
    · exact ⟨_, .inl rfl⟩
    · exact ⟨_, .inr ⟨rfl, rfl⟩⟩
  case jal =>
    cases h
    exact .inr (.inr (.inl ⟨rfl, rfl, rfl, _, .inr ⟨rfl, rfl⟩⟩))
  case jr =>
    refine .inr (.inr (.inl ⟨rfl, rfl, rfl, ?_⟩))
    simp only [exec, execJr] at h
    split at h
    · cases h
    · cases h; exact ⟨_, .inl rfl⟩
  all_goals
    cases h
    exact .inl ⟨rfl, rfl, rfl, _, _, s.lmd, rfl, rfl⟩

/-- Every failure of `exec`: an overflow of ADD, SUB or ADDI, or of an address sum with `EA_OVERFLOW_CHECK`; or a failure
of the data access (R156). -/
theorem exec_fault {i : Instr} {s : State} {e : Fault} (h : exec i s = .fault e) :
    (e = .arithmeticOverflow ∧ (s.params.eaOverflowCheck = true ∨
      ∃ (a b c : RegIdx) (imm : Imm16), i = .add a b c ∨ i = .sub a b c ∨ i = .addi a b imm)) ∨
    e = .invalidAlignment ∨ e = .invalidAddress := by
  cases i
  case add a b c =>
    simp only [exec, execAdd] at h
    rcases sadd_inv (check := true) (a := s.readReg b) (b := s.readReg c) with h' | ⟨hc, h'⟩ <;> rw [h'] at h <;> cases h
    exact .inl ⟨rfl, .inr ⟨a, b, c, 0#16, .inl rfl⟩⟩
  case addi a b c =>
    simp only [exec, execAddi] at h
    rcases sadd_inv (check := true) (a := s.readReg b) (b := sext16 c) with h' | ⟨hc, h'⟩ <;> rw [h'] at h <;> cases h
    exact .inl ⟨rfl, .inr ⟨a, b, 0#5, c, .inr (.inr rfl)⟩⟩
  case sub a b c =>
    simp only [exec, execSub] at h
    rcases ssub_inv (a := s.readReg b) (b := s.readReg c) with h' | h' <;> rw [h'] at h <;> cases h
    exact .inl ⟨rfl, .inr ⟨a, b, c, 0#16, .inr (.inl rfl)⟩⟩
  case jr a b c =>
    simp only [exec, execJr] at h
    rcases sadd_inv (check := s.params.eaOverflowCheck) (a := s.readReg a) (b := s.readReg b) with h' | ⟨hc, h'⟩ <;>
      rw [h'] at h <;> cases h
    exact .inl ⟨rfl, .inl hc⟩
  case sb rt rs imm | sh rt rs imm | sw rt rs imm =>
    simp only [exec, execSb, execSh, execSw] at h
    rcases store_cases rs imm _ (s.readReg rt) s with ⟨e, he, h'⟩ | ⟨ea, _, ⟨_, h'⟩ | ⟨_, ⟨e, he, h'⟩ | ⟨m, hm, h'⟩⟩⟩ <;>
      rw [h'] at h <;> cases h
    · obtain ⟨rfl, hc⟩ := effectiveAddress_error he; exact .inl ⟨rfl, .inl hc⟩
    · exact .inr (.inl rfl)
    · exact .inr (Memory.memWrite_error he)
  case lb rt rs imm | lbu rt rs imm | lw rt rs imm | lwl rt rs imm | lwr rt rs imm =>
    simp only [exec, execLb, execLbu, execLw, execLwl, execLwr] at h
    rcases load_cases rt rs imm _ _ s with ⟨e, he, h'⟩ | ⟨ea, _, ⟨_, h'⟩ | ⟨_, ⟨e, he, h'⟩ | ⟨m, hm, h'⟩⟩⟩ <;>
      rw [h'] at h <;> cases h
    · obtain ⟨rfl, hc⟩ := effectiveAddress_error he; exact .inl ⟨rfl, .inl hc⟩
    · exact .inr (.inl rfl)
    · try simp only [Except.map, Memory.readContaining] at he
      try split at he
      all_goals first
        | exact .inr (Memory.memRead_error he)
        | (cases he; rename_i hr; exact .inr (Memory.memRead_error hr))
        | cases he
  all_goals cases h

/-- R22, R96 to R98: every instruction moves `pc` to `npc`. -/
theorem exec_pc {i : Instr} {s t : State} (h : exec i s = .next t) : t.pc = s.npc := by
  rcases exec_shape h with ⟨_, _, _, rd, v, l, _, rfl⟩ | ⟨_, _, _, h, l, rfl⟩ | ⟨_, _, _, tgt, rfl | ⟨_, rfl⟩⟩ |
    ⟨_, _, _, ea, n, v, m, _, rfl⟩ <;> simp

/-- A step that answers a next state fetched, decoded and executed. -/
theorem step_inv {s t : State} (h : step s = .next t) :
    s.mem.blockSize = 4 ∧ ∃ w i, fetch s = .ok w ∧ decode w = .ok i ∧ exec i { s with ir := w } = .next t := by
  rcases step_cases s with ⟨_, h'⟩ | ⟨hb, ⟨e, _, h'⟩ | ⟨w, hw, ⟨e, _, h'⟩ | ⟨i, hi, h'⟩⟩⟩ <;> rw [h'] at h
  · cases h
  · cases h
  · cases h
  · exact ⟨hb, w, i, hw, hi, h⟩

end Sys2Proof.Machine
end

