-- ==== Sys2Proof/Laws/Host.lean ====
section
/-!
SUPPORT. Everything a call of the host can answer, one lemma per call, and what each way of changing a CPU does to its
memory and its parameters.
-/

namespace Sys2Proof.Machine

/-! ## Memory and parameters of a CPU -/

@[simp] theorem Cpu.memory_ready (s : State) : (Cpu.ready s).memory = s.mem := rfl
@[simp] theorem Cpu.memory_unreset (p : Params) (m : Memory) : (Cpu.unreset p m).memory = m := rfl
@[simp] theorem Cpu.params_ready (s : State) : (Cpu.ready s).params = s.params := rfl
@[simp] theorem Cpu.params_unreset (p : Params) (m : Memory) : (Cpu.unreset p m).params = p := rfl
@[simp] theorem Cpu.withMemory_ready (m : Memory) (s : State) :
    Cpu.withMemory m (.ready s) = .ready { s with mem := m } := rfl
@[simp] theorem Cpu.withMemory_unreset (m m' : Memory) (p : Params) :
    Cpu.withMemory m (.unreset p m') = .unreset p m := rfl
@[simp] theorem Cpu.withMemory_memory (m : Memory) (c : Cpu) : (c.withMemory m).memory = m := by cases c <;> rfl
@[simp] theorem Cpu.withMemory_params (m : Memory) (c : Cpu) : (c.withMemory m).params = c.params := by cases c <;> rfl
@[simp] theorem resetCall_memory (d : Word) (c : Cpu) : (resetCall d c).memory = c.memory := by cases c <;> rfl
@[simp] theorem resetCall_params (d : Word) (c : Cpu) : (resetCall d c).params = c.params := by cases c <;> rfl
@[simp] theorem setDebugLevel_eq (level : Nat) (c : Cpu) : setDebugLevel level c = c := rfl

/-! ## The state after a failed step -/

@[simp] theorem afterFailedStep_mem (s : State) : (afterFailedStep s).mem = s.mem := by
  unfold afterFailedStep; split <;> rfl
@[simp] theorem afterFailedStep_params (s : State) : (afterFailedStep s).params = s.params := by
  unfold afterFailedStep; split <;> rfl

/-! ## The calls -/

/-- A step call that is answered found the CPU reset, and the step either has a next state or fails. -/
theorem stepCall_cases {c d : Cpu} {r : Except Fault Unit} (h : stepCall c = .ok (d, r)) :
    ∃ s, c = .ready s ∧ ((∃ t, step s = .next t ∧ d = .ready t ∧ r = .ok ()) ∨
      ∃ e, step s = .fault e ∧ d = .ready (afterFailedStep s) ∧ r = .error e) := by
  cases c with
  | unreset p m => cases h
  | ready s =>
    simp only [stepCall] at h
    cases hs : step s <;> rw [hs] at h <;> cases h
    · exact ⟨s, rfl, .inl ⟨_, hs, rfl, rfl⟩⟩
    · exact ⟨s, rfl, .inr ⟨_, hs, rfl, rfl⟩⟩

theorem getRegister_cpu {k : Nat} {c d : Cpu} {r : Except Fault Word} (h : getRegister k c = .ok (d, r)) : d = c := by
  cases c with
  | unreset p m => cases h
  | ready s => simp only [getRegister] at h; split at h <;> cases h <;> rfl

theorem getPc_cpu {c d : Cpu} {r : Except Fault Word} (h : getPc c = .ok (d, r)) : d = c := by
  cases c <;> cases h; rfl

theorem setRegister_cases {k : Nat} {v : Word} {c d : Cpu} {r : Except Fault Unit}
    (h : setRegister k v c = .ok (d, r)) :
    d = c ∨ ∃ s, c = .ready s ∧ d = .ready (s.writeReg (BitVec.ofNat 5 k) v) := by
  unfold setRegister at h
  split at h
  · cases c <;> cases h
    · exact .inl rfl
    · exact .inr ⟨_, rfl, rfl⟩
  · cases h; exact .inl rfl

theorem setPc_cases {v : Word} {c d : Cpu} {r : Except Fault Unit} (h : setPc v c = .ok (d, r)) :
    d = c ∨ ∃ s, c = .ready s ∧ d = .ready (s.setPc v) := by
  cases c <;> cases h
  · exact .inl rfl
  · exact .inr ⟨_, rfl, rfl⟩

theorem memReadCall_cpu {a : Word} {n : Nat} {c d : Cpu} {r : Except Fault (List Byte)}
    (h : memReadCall a n c = .ok (d, r)) : d = c := by cases h; rfl

theorem memWriteCall_cases {a : Word} {n : Nat} {bytes : List Byte} {c d : Cpu} {r : Except Fault Unit}
    (h : memWriteCall a n bytes c = .ok (d, r)) :
    d = c ∨ d = c.withMemory (c.memory.setBytes a.toNat (bytes.take n)) := by
  unfold memWriteCall at h
  split at h
  · cases h
  · split at h
    · cases h; exact .inl rfl
    · rename_i m hm
      obtain ⟨_, rfl⟩ := Memory.blockWrite_inv hm
      cases h; exact .inr rfl

end Sys2Proof.Machine
end

