-- ==== Sys2Proof/Laws/PerInstr.lean ====
section
/-!
SUPPORT. One fact per instruction, as syntax: its word matches the mask and pattern of its row of
spec/opcode_table.json.
-/

namespace Sys2Proof.Laws.EncodeRow

/-- The word the encoder writes for the instruction is a word of the instruction's row. -/
def Statement (i : Instr) : Prop := encode i &&& i.row.mask = i.row.pattern

theorem sll (rd rt : RegIdx) (shamt : Shamt) : Statement (.sll rd rt shamt) := rWord_mask_shift _ _ _ _ _
theorem srl (rd rt : RegIdx) (shamt : Shamt) : Statement (.srl rd rt shamt) := rWord_mask_shift _ _ _ _ _
theorem sra (rd rt : RegIdx) (shamt : Shamt) : Statement (.sra rd rt shamt) := rWord_mask_shift _ _ _ _ _
theorem sllv (rd rt rs : RegIdx) : Statement (.sllv rd rt rs) := rWord_mask_plain _ _ _ _ _
theorem srlv (rd rt rs : RegIdx) : Statement (.srlv rd rt rs) := rWord_mask_plain _ _ _ _ _
theorem jr (rs rt rd : RegIdx) : Statement (.jr rs rt rd) := rWord_mask_plain _ _ _ _ _
theorem mfhi (rd : RegIdx) : Statement (.mfhi rd) := rWord_mask_move _ _ _ _ _
theorem mflo (rd : RegIdx) : Statement (.mflo rd) := rWord_mask_move _ _ _ _ _
theorem mult (rs rt : RegIdx) : Statement (.mult rs rt) := rWord_mask_mulDiv _ _ _ _ _
theorem multu (rs rt : RegIdx) : Statement (.multu rs rt) := rWord_mask_mulDiv _ _ _ _ _
theorem div (rs rt : RegIdx) : Statement (.div rs rt) := rWord_mask_mulDiv _ _ _ _ _
theorem divu (rs rt : RegIdx) : Statement (.divu rs rt) := rWord_mask_mulDiv _ _ _ _ _
theorem add (rd rs rt : RegIdx) : Statement (.add rd rs rt) := rWord_mask_plain _ _ _ _ _
theorem addu (rd rs rt : RegIdx) : Statement (.addu rd rs rt) := rWord_mask_plain _ _ _ _ _
theorem sub (rd rs rt : RegIdx) : Statement (.sub rd rs rt) := rWord_mask_plain _ _ _ _ _
theorem subu (rd rs rt : RegIdx) : Statement (.subu rd rs rt) := rWord_mask_plain _ _ _ _ _
theorem and (rd rs rt : RegIdx) : Statement (.and rd rs rt) := rWord_mask_plain _ _ _ _ _
theorem or (rd rs rt : RegIdx) : Statement (.or rd rs rt) := rWord_mask_plain _ _ _ _ _
theorem xor (rd rs rt : RegIdx) : Statement (.xor rd rs rt) := rWord_mask_plain _ _ _ _ _
theorem slt (rd rs rt : RegIdx) : Statement (.slt rd rs rt) := rWord_mask_plain _ _ _ _ _
theorem sltu (rd rs rt : RegIdx) : Statement (.sltu rd rs rt) := rWord_mask_plain _ _ _ _ _
theorem bltz (rs : RegIdx) (off : Imm16) : Statement (.bltz rs off) := iWord_mask_regimm _ _ _ _
theorem bgez (rs : RegIdx) (off : Imm16) : Statement (.bgez rs off) := iWord_mask_regimm _ _ _ _
theorem bltzal (rs : RegIdx) (off : Imm16) : Statement (.bltzal rs off) := iWord_mask_regimm _ _ _ _
theorem bgezal (rs : RegIdx) (off : Imm16) : Statement (.bgezal rs off) := iWord_mask_regimm _ _ _ _
theorem j (target : Target26) : Statement (.j target) := jWord_mask_opcode _ _
theorem jal (target : Target26) : Statement (.jal target) := jWord_mask_opcode _ _
theorem beq (rs rt : RegIdx) (off : Imm16) : Statement (.beq rs rt off) := iWord_mask_opcode _ _ _ _
theorem bne (rs rt : RegIdx) (off : Imm16) : Statement (.bne rs rt off) := iWord_mask_opcode _ _ _ _
theorem blez (rs rt : RegIdx) (off : Imm16) : Statement (.blez rs rt off) := iWord_mask_opcode _ _ _ _
theorem bgtz (rs rt : RegIdx) (off : Imm16) : Statement (.bgtz rs rt off) := iWord_mask_opcode _ _ _ _
theorem addi (rt rs : RegIdx) (imm : Imm16) : Statement (.addi rt rs imm) := iWord_mask_opcode _ _ _ _
theorem addiu (rt rs : RegIdx) (imm : Imm16) : Statement (.addiu rt rs imm) := iWord_mask_opcode _ _ _ _
theorem slti (rt rs : RegIdx) (imm : Imm16) : Statement (.slti rt rs imm) := iWord_mask_opcode _ _ _ _
theorem sltiu (rt rs : RegIdx) (imm : Imm16) : Statement (.sltiu rt rs imm) := iWord_mask_opcode _ _ _ _
theorem andi (rt rs : RegIdx) (imm : Imm16) : Statement (.andi rt rs imm) := iWord_mask_opcode _ _ _ _
theorem ori (rt rs : RegIdx) (imm : Imm16) : Statement (.ori rt rs imm) := iWord_mask_opcode _ _ _ _
theorem xori (rt rs : RegIdx) (imm : Imm16) : Statement (.xori rt rs imm) := iWord_mask_opcode _ _ _ _
theorem lui (rt : RegIdx) (imm : Imm16) : Statement (.lui rt imm) := iWord_mask_lui _ _ _ _
theorem lb (rt rs : RegIdx) (imm : Imm16) : Statement (.lb rt rs imm) := iWord_mask_opcode _ _ _ _
theorem lwl (rt rs : RegIdx) (imm : Imm16) : Statement (.lwl rt rs imm) := iWord_mask_opcode _ _ _ _
theorem lw (rt rs : RegIdx) (imm : Imm16) : Statement (.lw rt rs imm) := iWord_mask_opcode _ _ _ _
theorem lbu (rt rs : RegIdx) (imm : Imm16) : Statement (.lbu rt rs imm) := iWord_mask_opcode _ _ _ _
theorem lwr (rt rs : RegIdx) (imm : Imm16) : Statement (.lwr rt rs imm) := iWord_mask_opcode _ _ _ _
theorem sb (rt rs : RegIdx) (imm : Imm16) : Statement (.sb rt rs imm) := iWord_mask_opcode _ _ _ _
theorem sh (rt rs : RegIdx) (imm : Imm16) : Statement (.sh rt rs imm) := iWord_mask_opcode _ _ _ _
theorem sw (rt rs : RegIdx) (imm : Imm16) : Statement (.sw rt rs imm) := iWord_mask_opcode _ _ _ _

end Sys2Proof.Laws.EncodeRow
end

