-- ==== Sys2Proof/Laws/Values.lean ====
section
/-!
SUPPORT. What each value computation means in integers and bytes: immediates, overflow, branch conditions, shift amounts,
targets, the unaligned merges. One lemma per function of Machine/Operands.lean, Machine/Flags.lean and the merges of
Machine/Ops.lean.
-/

namespace Sys2Proof.Machine

/-! ## Immediates and overflow -/

theorem sext16_toInt (imm : Imm16) : (sext16 imm).toInt = imm.toInt :=
  BitVec.toInt_signExtend_of_le (by omega)

theorem fitsS32_iff (t : Int) : fitsS32 t = true ↔ FitsSigned32 t := by
  simp [fitsS32, FitsSigned32]

theorem fitsS32_eq_false {t : Int} (h : ¬FitsSigned32 t) : fitsS32 t = false := by
  rw [← Bool.not_eq_true, fitsS32_iff]; exact h

/-- A sum that fits is exact. -/
theorem toInt_add_of_fits {a b : Word} (h : FitsSigned32 (a.toInt + b.toInt)) : (a + b).toInt = a.toInt + b.toInt := by
  rw [BitVec.toInt_add]
  apply Int.bmod_eq_of_le <;> unfold FitsSigned32 at h <;> omega

/-- A difference that fits is exact. -/
theorem toInt_sub_of_fits {a b : Word} (h : FitsSigned32 (a.toInt - b.toInt)) : (a - b).toInt = a.toInt - b.toInt := by
  rw [BitVec.toInt_sub]
  apply Int.bmod_eq_of_le <;> unfold FitsSigned32 at h <;> omega

/-! ## Branch conditions on the CMP result -/

theorem cmpDiff_zero (a : Word) : cmpDiff a 0#32 = a := BitVec.sub_zero a

theorem condEq_cmpDiff (a b : Word) : condEq (cmpDiff a b) = decide (a = b) := by
  have h : a - b = 0#32 ↔ a = b := ⟨fun h => by bv_omega, fun h => by simp [h]⟩
  simp only [condEq, cmpDiff, beq_eq_decide, h]

theorem condNe_cmpDiff (a b : Word) : condNe (cmpDiff a b) = decide (a ≠ b) := by
  have h := condEq_cmpDiff a b
  simp only [condEq, condNe, bne] at h ⊢
  rw [h, decide_not]

/-! ## Shift amounts -/

theorem shiftAmount_shamtWord (shamt : Shamt) : shiftAmount (shamtWord shamt) = shamt.toNat := by
  have := shamt.isLt
  simp [shiftAmount, shamtWord, BitVec.extractLsb'_toNat]
  omega

theorem shiftAmount_eq (a : Word) : shiftAmount a = a.toNat % 32 := by
  simp [shiftAmount, BitVec.extractLsb'_toNat]

/-! ## Targets -/

/-- The shifted sign-extended offset is four times the signed word count (R71). -/
theorem sext16_shiftLeft_two (off : Imm16) : sext16 off <<< 2 = offsetBytes off := by
  unfold offsetBytes
  rw [← sext16_toInt off]
  generalize sext16 off = x
  apply BitVec.eq_of_toNat_eq
  rw [BitVec.toNat_shiftLeft, BitVec.toNat_ofInt, BitVec.toInt_eq_toNat_cond, Nat.shiftLeft_eq]
  split <;> omega

theorem branchTarget_eq (oldNpc : Word) (off : Imm16) : branchTarget oldNpc off = oldNpc + offsetBytes off := by
  unfold branchTarget
  rw [sext16_shiftLeft_two]

/-- The assembled jump target is region bits, word index, two zeros (R72). -/
theorem jumpTarget_eq (pc : Word) (target : Target26) : jumpTarget pc target = regionTarget pc target := by
  unfold jumpTarget jumpRegion jumpOffset regionTarget
  apply BitVec.eq_of_getLsbD_eq
  intro i hi
  have hm : (0xF0000000#32).getLsbD i = decide (28 ≤ i) := by
    revert i; decide
  simp only [BitVec.getLsbD_or, BitVec.getLsbD_and, hm, BitVec.getLsbD_shiftLeft, BitVec.getLsbD_setWidth,
    BitVec.getLsbD_append, BitVec.getLsbD_extractLsb', hi]
  by_cases h1 : i < 2
  · simp [h1]
    intro _; omega
  · by_cases h2 : i - 2 < 26
    · have h3 : ¬28 ≤ i := by omega
      simp [h1, h2, h3]
      intro _; omega
    · have h3 : 28 ≤ i := by omega
      have h4 : i - 2 - 26 < 4 := by omega
      have h5 : target.getLsbD (i - 2) = false := BitVec.getLsbD_of_ge _ _ (by omega)
      simp [h1, h2, h3, h4, h5]
      congr 1; omega

/-! ## Bytes of words -/

theorem byteOf_append (a b c d : Byte) :
    byteOf (a ++ b ++ c ++ d) 0 = a ∧ byteOf (a ++ b ++ c ++ d) 1 = b ∧ byteOf (a ++ b ++ c ++ d) 2 = c ∧
      byteOf (a ++ b ++ c ++ d) 3 = d := by
  unfold byteOf
  refine ⟨?_, ?_, ?_, ?_⟩ <;>
    simp (disch := decide) only [extract_append_high, extract_append_low, Nat.reduceSub, Nat.reduceMul, extract_all]

/-- The bytes of the word at an address (R42). -/
theorem byteOf_wordAt (m : Memory) (a : Nat) {k : Nat} (hk : k < 4) : byteOf (m.wordAt a) k = m.byteAt (a + k) := by
  obtain ⟨h0, h1, h2, h3⟩ := byteOf_append (m.byteAt a) (m.byteAt (a + 1)) (m.byteAt (a + 2)) (m.byteAt (a + 3))
  have hcases : k = 0 ∨ k = 1 ∨ k = 2 ∨ k = 3 := by omega
  rcases hcases with rfl | rfl | rfl | rfl <;> assumption

/-- A word is its four bytes. -/
theorem word_eq_bytes (v : Word) : v = byteOf v 0 ++ byteOf v 1 ++ byteOf v 2 ++ byteOf v 3 := by
  unfold byteOf
  simp only [Nat.reduceMul, Nat.reduceSub]
  rw [append_extract v 16 8 8, append_extract v 8 16 8, append_extract v 0 24 8]
  exact (extract_all v).symm

/-- The bytes of the LWL merge (R149). -/
theorem byteOf_mergeLeft {k p : Nat} (hk : k < 4) (hp : p < 4) (w old : Word) :
    byteOf (mergeLeft k w old) p = if p + k < 4 then byteOf w (p + k) else byteOf old p := by
  have hcases : k = 0 ∨ k = 1 ∨ k = 2 ∨ k = 3 := by omega
  have hm : ∀ j : Nat, j < 32 → ((1#32 <<< (8 * k)) - 1#32).getLsbD j = decide (j < 8 * k) := by
    rcases hcases with rfl | rfl | rfl | rfl <;> decide
  unfold byteOf mergeLeft
  apply BitVec.eq_of_getLsbD_eq
  intro i hi
  have hlt : 24 - 8 * p + i < 32 := by omega
  simp only [BitVec.getLsbD_extractLsb', hi, decide_true, Bool.true_and, BitVec.getLsbD_or, BitVec.getLsbD_and,
    BitVec.getLsbD_shiftLeft, hm _ hlt, hlt]
  split
  · have h1 : ¬24 - 8 * p + i < 8 * k := by omega
    simp [h1, hi]
    congr 1; omega
  · have h1 : 24 - 8 * p + i < 8 * k := by omega
    simp [h1, hi]

/-- The bytes of the LWR merge (R150). -/
theorem byteOf_mergeRight {k p : Nat} (hk : k < 4) (hp : p < 4) (w old : Word) :
    byteOf (mergeRight k w old) p = if 3 ≤ p + k then byteOf w (p + k - 3) else byteOf old p := by
  have hcases : k = 0 ∨ k = 1 ∨ k = 2 ∨ k = 3 := by omega
  have hm : ∀ j : Nat, j < 32 → (~~~(0xFFFFFFFF#32 >>> (8 * (3 - k)))).getLsbD j = decide (32 - 8 * (3 - k) ≤ j) := by
    rcases hcases with rfl | rfl | rfl | rfl <;> decide
  unfold byteOf mergeRight
  apply BitVec.eq_of_getLsbD_eq
  intro i hi
  have hlt : 24 - 8 * p + i < 32 := by omega
  simp only [BitVec.getLsbD_extractLsb', hi, decide_true, Bool.true_and, BitVec.getLsbD_or, BitVec.getLsbD_and,
    BitVec.getLsbD_ushiftRight, hm _ hlt]
  split
  · have h1 : ¬32 - 8 * (3 - k) ≤ 24 - 8 * p + i := by omega
    simp [h1, hi]
    congr 1; omega
  · have h1 : 32 - 8 * (3 - k) ≤ 24 - 8 * p + i := by omega
    have h2 : w.getLsbD (8 * (3 - k) + (24 - 8 * p + i)) = false := BitVec.getLsbD_of_ge _ _ (by omega)
    simp [h1, h2, hi]

/-- The two halves of a double word. -/
theorem hiLo_append (p : BitVec 64) : (hiLo p).1 ++ (hiLo p).2 = p := by
  simp only [hiLo]
  rw [append_extract p 0 32 32]
  exact extract_all p

end Sys2Proof.Machine
end

