-- ==== Sys2Proof/Tests/Slice0.lean ====
section
/-!
SUPPORT. Small tests and witnesses. Expected results are those of the spec's own examples: 95_test_vectors.md (the row is
named in each comment) and the corner cases of the instruction rules. Words are written out field by field in binary from
30_encoding.md.
-/

namespace Sys2Proof.Tests

open Sys2Proof Sys2Proof.Machine

/-! ## Well-formedness: the forms that the syntax of R82 does not write -/

theorem test_assembled_jr : Instr.assembled (.jr 31#5 0#5 0#5) = true := by decide
theorem test_assembled_jr_rt : Instr.assembled (.jr 31#5 1#5 0#5) = false := by decide
theorem test_assembled_jr_rd : Instr.assembled (.jr 31#5 0#5 1#5) = false := by decide
theorem test_assembled_blez_rt : Instr.assembled (.blez 1#5 2#5 2#16) = false := by decide
theorem test_assembled_bgtz_rt : Instr.assembled (.bgtz 1#5 2#5 2#16) = false := by decide

/-! ## Decoding: one word per constructor -/

/-- L9. -/
theorem test_decode_sll : decode 0b000000_00000_00010_00011_11111_000000#32 = .ok (.sll 3#5 2#5 31#5) := by decide
/-- L10. -/
theorem test_decode_srl : decode 0b000000_00000_00010_00011_11111_000010#32 = .ok (.srl 3#5 2#5 31#5) := by decide
/-- L12. -/
theorem test_decode_sra : decode 0b000000_00000_00010_00011_00100_000011#32 = .ok (.sra 3#5 2#5 4#5) := by decide
/-- L15. -/
theorem test_decode_sllv : decode 0b000000_00001_00010_00011_00000_000100#32 = .ok (.sllv 3#5 2#5 1#5) := by decide
/-- L16. -/
theorem test_decode_srlv : decode 0b000000_00001_00010_00011_00000_000110#32 = .ok (.srlv 3#5 2#5 1#5) := by decide
/-- B27, with the rt field 1. -/
theorem test_decode_jr : decode 0b000000_11111_00001_00000_00000_001000#32 = .ok (.jr 31#5 1#5 0#5) := by decide
/-- A30. -/
theorem test_decode_mfhi : decode 0b000000_00000_00000_00011_00000_010000#32 = .ok (.mfhi 3#5) := by decide
/-- A30. -/
theorem test_decode_mflo : decode 0b000000_00000_00000_00100_00000_010010#32 = .ok (.mflo 4#5) := by decide
/-- A19. -/
theorem test_decode_mult : decode 0b000000_00001_00010_00000_00000_011000#32 = .ok (.mult 1#5 2#5) := by decide
/-- A21. -/
theorem test_decode_multu : decode 0b000000_00001_00010_00000_00000_011001#32 = .ok (.multu 1#5 2#5) := by decide
/-- A23. -/
theorem test_decode_div : decode 0b000000_00001_00010_00000_00000_011010#32 = .ok (.div 1#5 2#5) := by decide
/-- A27. -/
theorem test_decode_divu : decode 0b000000_00001_00010_00000_00000_011011#32 = .ok (.divu 1#5 2#5) := by decide
/-- A1. -/
theorem test_decode_add : decode 0b000000_00001_00010_00011_00000_100000#32 = .ok (.add 3#5 1#5 2#5) := by decide
/-- A7. -/
theorem test_decode_addu : decode 0b000000_00001_00010_00011_00000_100001#32 = .ok (.addu 3#5 1#5 2#5) := by decide
/-- A9. -/
theorem test_decode_sub : decode 0b000000_00001_00010_00011_00000_100010#32 = .ok (.sub 3#5 1#5 2#5) := by decide
/-- A12. -/
theorem test_decode_subu : decode 0b000000_00001_00010_00011_00000_100011#32 = .ok (.subu 3#5 1#5 2#5) := by decide
/-- L1. -/
theorem test_decode_and : decode 0b000000_00001_00010_00011_00000_100100#32 = .ok (.and 3#5 1#5 2#5) := by decide
/-- L2. -/
theorem test_decode_or : decode 0b000000_00001_00010_00011_00000_100101#32 = .ok (.or 3#5 1#5 2#5) := by decide
/-- L3. -/
theorem test_decode_xor : decode 0b000000_00001_00010_00011_00000_100110#32 = .ok (.xor 3#5 1#5 2#5) := by decide
/-- L19. -/
theorem test_decode_slt : decode 0b000000_00001_00010_00011_00000_101010#32 = .ok (.slt 3#5 1#5 2#5) := by decide
/-- L20. -/
theorem test_decode_sltu : decode 0b000000_00001_00010_00011_00000_101011#32 = .ok (.sltu 3#5 1#5 2#5) := by decide
/-- B15. -/
theorem test_decode_bltz : decode 0b000001_00001_00000_0000000000000010#32 = .ok (.bltz 1#5 2#16) := by decide
/-- B17. -/
theorem test_decode_bgez : decode 0b000001_00001_00001_0000000000000010#32 = .ok (.bgez 1#5 2#16) := by decide
/-- B19. -/
theorem test_decode_bltzal : decode 0b000001_00001_10000_0000000000000010#32 = .ok (.bltzal 1#5 2#16) := by decide
/-- B22. -/
theorem test_decode_bgezal : decode 0b000001_11111_10001_0000000000000010#32 = .ok (.bgezal 31#5 2#16) := by decide
/-- B24. -/
theorem test_decode_j : decode 0b000010_00000000000000000001000000#32 = .ok (.j 0x40#26) := by decide
/-- B35. -/
theorem test_decode_jal : decode 0b000011_11111111111111111111111111#32 = .ok (.jal 0x3FFFFFF#26) := by decide
/-- B1. -/
theorem test_decode_beq : decode 0b000100_00001_00010_0000000000000011#32 = .ok (.beq 1#5 2#5 3#16) := by decide
/-- B3. -/
theorem test_decode_bne : decode 0b000101_00001_00010_1111111111111111#32 = .ok (.bne 1#5 2#5 0xFFFF#16) := by decide
/-- B11, with the rt field 2. -/
theorem test_decode_blez : decode 0b000110_00001_00010_0000000000000010#32 = .ok (.blez 1#5 2#5 2#16) := by decide
/-- B12. -/
theorem test_decode_bgtz : decode 0b000111_00001_00000_0000000000000010#32 = .ok (.bgtz 1#5 0#5 2#16) := by decide
/-- A13. -/
theorem test_decode_addi : decode 0b001000_00001_00010_1111111111111111#32 = .ok (.addi 2#5 1#5 0xFFFF#16) := by decide
/-- A18. -/
theorem test_decode_addiu : decode 0b001001_00001_00010_1000000000000000#32 = .ok (.addiu 2#5 1#5 0x8000#16) :=
  by decide
/-- L24. -/
theorem test_decode_slti : decode 0b001010_00001_00010_1000000000000000#32 = .ok (.slti 2#5 1#5 0x8000#16) := by decide
/-- L25. -/
theorem test_decode_sltiu : decode 0b001011_00001_00010_1111111111111111#32 = .ok (.sltiu 2#5 1#5 0xFFFF#16) :=
  by decide
/-- L4. -/
theorem test_decode_andi : decode 0b001100_00001_00010_1000000000000000#32 = .ok (.andi 2#5 1#5 0x8000#16) := by decide
/-- L5. -/
theorem test_decode_ori : decode 0b001101_00001_00010_1111111111111111#32 = .ok (.ori 2#5 1#5 0xFFFF#16) := by decide
/-- L6. -/
theorem test_decode_xori : decode 0b001110_00001_00010_1111111111111111#32 = .ok (.xori 2#5 1#5 0xFFFF#16) := by decide
/-- L7. -/
theorem test_decode_lui : decode 0b001111_00000_00010_1000000000000001#32 = .ok (.lui 2#5 0x8001#16) := by decide
/-- M3. -/
theorem test_decode_lb : decode 0b100000_00001_00010_1111111111111111#32 = .ok (.lb 2#5 1#5 0xFFFF#16) := by decide
/-- M14. -/
theorem test_decode_lwl : decode 0b100010_00001_00010_0000000000000001#32 = .ok (.lwl 2#5 1#5 1#16) := by decide
/-- M5. -/
theorem test_decode_lw : decode 0b100011_00001_00010_0000000000000100#32 = .ok (.lw 2#5 1#5 4#16) := by decide
/-- M2. -/
theorem test_decode_lbu : decode 0b100100_00001_00010_0000000000000000#32 = .ok (.lbu 2#5 1#5 0#16) := by decide
/-- M21. -/
theorem test_decode_lwr : decode 0b100110_00001_00010_0000000000000100#32 = .ok (.lwr 2#5 1#5 4#16) := by decide
/-- M23. -/
theorem test_decode_sb : decode 0b101000_00001_00010_0000000000000001#32 = .ok (.sb 2#5 1#5 1#16) := by decide
/-- M24. -/
theorem test_decode_sh : decode 0b101001_00001_00010_0000000000000010#32 = .ok (.sh 2#5 1#5 2#16) := by decide
/-- M26. -/
theorem test_decode_sw : decode 0b101011_00001_00010_0000000000000000#32 = .ok (.sw 2#5 1#5 0#16) := by decide

/-! ## Decoding: words that fail a field check or have no entry -/

/-- A32. -/
theorem test_reject_mfhi_rs : decode 0x00201810#32 = .error .invalidInstruction := by decide
/-- A33. -/
theorem test_reject_mflo_rt : decode 0x00011812#32 = .error .invalidInstruction := by decide
/-- A34. -/
theorem test_reject_mult_rd : decode 0x00221818#32 = .error .invalidInstruction := by decide
/-- A35. -/
theorem test_reject_add_shamt : decode 0x00221860#32 = .error .invalidInstruction := by decide
/-- A36. -/
theorem test_reject_div_rd : decode 0x0022081A#32 = .error .invalidInstruction := by decide
/-- L8. -/
theorem test_reject_lui_rs : decode 0x3C228001#32 = .error .invalidInstruction := by decide
/-- L14. -/
theorem test_reject_sll_rs : decode 0x00221900#32 = .error .invalidInstruction := by decide
/-- L18. -/
theorem test_reject_sllv_shamt : decode 0x00221884#32 = .error .invalidInstruction := by decide
/-- B28. -/
theorem test_reject_jr_shamt : decode 0x03E00048#32 = .error .invalidInstruction := by decide
/-- X1. -/
theorem test_reject_opcode : decode 0xFC000000#32 = .error .invalidInstruction := by decide
/-- X2. -/
theorem test_reject_funct : decode 0x0000000C#32 = .error .invalidInstruction := by decide
/-- X4. -/
theorem test_reject_regimm : decode 0x04020000#32 = .error .invalidInstruction := by decide
/-- X6. -/
theorem test_reject_lh : decode 0x84000000#32 = .error .invalidInstruction := by decide
/-- R63: an instruction is four bytes. -/
theorem test_reject_short : decodeBytes [0x00#8, 0x22#8, 0x18#8] = .error .notOneWord := by decide
/-- R41: the bytes of a word lie most significant first. -/
theorem test_decodeBytes : decodeBytes [0x00#8, 0x22#8, 0x18#8, 0x20#8] = .ok (.add 3#5 1#5 2#5) := by decide
/-- The host's query on the word of the ADD row. -/
theorem test_decodeTableWord : decodeTableWord 32 0x00000020 = some (.add 0#5 0#5 0#5) := by decide

/-! ## One step

The start state of 95_test_vectors.md section 0 (`pc = 0x100`, the sentinel in HI, LO and r3), r1 and r2 as given, r31
equal to r1, eight bytes of data at 0x1000 and one instruction word at 0x100. -/

def vec (w : Nat) (r1 r2 : Word) : State :=
  let m := (Memory.created 0x10000 4).setBytes 0x1000 [0x11#8, 0x22#8, 0x33#8, 0x44#8, 0x88#8, 0x66#8, 0x77#8, 0x88#8]
  let s : State := { State.reset with
    pc := 0x100#32, npc := 0x104#32, hi := 0xCCCCCCCC#32, lo := 0xCCCCCCCC#32, mem := m }
  ((((s.writeReg 3#5 0xCCCCCCCC#32).writeReg 1#5 r1).writeReg 2#5 r2).writeReg 31#5 r1).withFetchWord 32 w

/-- A register and the two program counters after the step. -/
def regAfter (w : Nat) (r1 r2 : Word) (r : RegIdx) : Option (Word × Word × Word) :=
  (nextState? (step (vec w r1 r2))).map (fun t => (t.readReg r, t.pc, t.npc))

/-- HI and LO after the step. -/
def hiLoAfter (w : Nat) (r1 r2 : Word) : Option (Word × Word) :=
  (nextState? (step (vec w r1 r2))).map (fun t => (t.hi, t.lo))

/-- The word at 0x1000 after the step. -/
def memAfter (w : Nat) (r1 r2 : Word) : Option Word :=
  (nextState? (step (vec w r1 r2))).map (fun t => t.mem.wordAt 0x1000)

/-- The failure of the step. -/
def failOf (w : Nat) (r1 r2 : Word) : Option Fault := faultOf? (step (vec w r1 r2))

/-- A1. -/
theorem test_add : regAfter 0x00221820 5#32 7#32 3#5 = some (0xC#32, 0x104#32, 0x108#32) := by decide
/-- A2, W6. -/
theorem test_add_overflow : failOf 0x00221820 0x7FFFFFFF#32 1#32 = some .arithmeticOverflow := by decide
/-- A7. -/
theorem test_addu : regAfter 0x00221821 0x7FFFFFFF#32 1#32 3#5 = some (0x80000000#32, 0x104#32, 0x108#32) := by decide
/-- A9. -/
theorem test_sub : regAfter 0x00221822 5#32 7#32 3#5 = some (0xFFFFFFFE#32, 0x104#32, 0x108#32) := by decide
/-- A11. -/
theorem test_sub_overflow : failOf 0x00221822 0x7FFFFFFF#32 0xFFFFFFFF#32 = some .arithmeticOverflow := by decide
/-- A12. -/
theorem test_subu : regAfter 0x00221823 0#32 1#32 3#5 = some (0xFFFFFFFF#32, 0x104#32, 0x108#32) := by decide
/-- A16. -/
theorem test_addi : regAfter 0x20228000 0x8000#32 0xCCCCCCCC#32 2#5 = some (0#32, 0x104#32, 0x108#32) := by decide
/-- A15. -/
theorem test_addi_overflow : failOf 0x2022FFFF 0x80000000#32 0xCCCCCCCC#32 = some .arithmeticOverflow := by decide
/-- A18. -/
theorem test_addiu : regAfter 0x24228000 0#32 0xCCCCCCCC#32 2#5 = some (0xFFFF8000#32, 0x104#32, 0x108#32) := by decide
/-- A19. -/
theorem test_mult : hiLoAfter 0x00220018 0xFFFFFFFE#32 3#32 = some (0xFFFFFFFF#32, 0xFFFFFFFA#32) := by decide
/-- A21. -/
theorem test_multu : hiLoAfter 0x00220019 0xFFFFFFFF#32 0xFFFFFFFF#32 = some (0xFFFFFFFE#32, 1#32) := by decide
/-- A24. -/
theorem test_div : hiLoAfter 0x0022001A 0xFFFFFFF9#32 2#32 = some (0xFFFFFFFF#32, 0xFFFFFFFD#32) := by decide
/-- A27. -/
theorem test_divu : hiLoAfter 0x0022001B 0xFFFFFFFF#32 2#32 = some (1#32, 0x7FFFFFFF#32) := by decide
/-- A28, A29, W9: a zero divisor gives the open function and does not fail. -/
theorem test_div_zero : nextState? (exec (.div 1#5 2#5) (vec 0 0x1234#32 0#32)) =
    some ({ vec 0 0x1234#32 0#32 with
      hi := (Config.div0Result .div 0x1234#32 0xCCCCCCCC#32 0xCCCCCCCC#32).1,
      lo := (Config.div0Result .div 0x1234#32 0xCCCCCCCC#32 0xCCCCCCCC#32).2 } : State).nextSeq := rfl
theorem test_divu_zero : nextState? (exec (.divu 1#5 2#5) (vec 0 0x1234#32 0#32)) =
    some ({ vec 0 0x1234#32 0#32 with
      hi := (Config.div0Result .divu 0x1234#32 0xCCCCCCCC#32 0xCCCCCCCC#32).1,
      lo := (Config.div0Result .divu 0x1234#32 0xCCCCCCCC#32 0xCCCCCCCC#32).2 } : State).nextSeq := rfl
/-- R115. -/
theorem test_mfhi : regAfter 0x00001810 0#32 0#32 3#5 = some (0xCCCCCCCC#32, 0x104#32, 0x108#32) := by decide
/-- A31. -/
theorem test_mfhi_r0 : regAfter 0x00000010 0#32 0#32 0#5 = some (0#32, 0x104#32, 0x108#32) := by decide
/-- R116. -/
theorem test_mflo : regAfter 0x00002012 0#32 0#32 4#5 = some (0xCCCCCCCC#32, 0x104#32, 0x108#32) := by decide
/-- L1. -/
theorem test_and : regAfter 0x00221824 0x00FF00F0#32 0x000F0F0F#32 3#5 = some (0x000F0000#32, 0x104#32, 0x108#32) :=
  by decide
/-- L2. -/
theorem test_or : regAfter 0x00221825 0x00FF00F0#32 0x000F0F0F#32 3#5 = some (0x00FF0FFF#32, 0x104#32, 0x108#32) :=
  by decide
/-- L3. -/
theorem test_xor : regAfter 0x00221826 0x00FF00F0#32 0x000F0F0F#32 3#5 = some (0x00F00FFF#32, 0x104#32, 0x108#32) :=
  by decide
/-- L4. -/
theorem test_andi : regAfter 0x30228000 0xFFFFFFFF#32 0xCCCCCCCC#32 2#5 = some (0x00008000#32, 0x104#32, 0x108#32) :=
  by decide
/-- L5. -/
theorem test_ori : regAfter 0x3422FFFF 0x12340000#32 0xCCCCCCCC#32 2#5 = some (0x1234FFFF#32, 0x104#32, 0x108#32) :=
  by decide
/-- L6. -/
theorem test_xori : regAfter 0x3822FFFF 0xFFFFFFFF#32 0xCCCCCCCC#32 2#5 = some (0xFFFF0000#32, 0x104#32, 0x108#32) :=
  by decide
/-- L7. -/
theorem test_lui : regAfter 0x3C028001 0#32 0xFFFFFFFF#32 2#5 = some (0x80010000#32, 0x104#32, 0x108#32) := by decide
/-- L9. -/
theorem test_sll : regAfter 0x00021FC0 0#32 3#32 3#5 = some (0x80000000#32, 0x104#32, 0x108#32) := by decide
/-- L28, W4. -/
theorem test_nop : regAfter 0x00000000 0#32 0xCCCCCCCC#32 3#5 = some (0xCCCCCCCC#32, 0x104#32, 0x108#32) := by decide
/-- L10. -/
theorem test_srl : regAfter 0x00021FC2 0#32 0x80000000#32 3#5 = some (1#32, 0x104#32, 0x108#32) := by decide
/-- L11. -/
theorem test_sra : regAfter 0x00021FC3 0#32 0x80000000#32 3#5 = some (0xFFFFFFFF#32, 0x104#32, 0x108#32) := by decide
/-- L12. -/
theorem test_sra_positive : regAfter 0x00021903 0#32 0x40000000#32 3#5 = some (0x04000000#32, 0x104#32, 0x108#32) :=
  by decide
/-- L15. -/
theorem test_sllv : regAfter 0x00221804 0x21#32 1#32 3#5 = some (2#32, 0x104#32, 0x108#32) := by decide
/-- L16. -/
theorem test_srlv : regAfter 0x00221806 0xFFFFFFE0#32 0x80000000#32 3#5 = some (0x80000000#32, 0x104#32, 0x108#32) :=
  by decide
/-- L17. -/
theorem test_srlv_31 : regAfter 0x00221806 0x1F#32 0x80000000#32 3#5 = some (1#32, 0x104#32, 0x108#32) := by decide
/-- L21. -/
theorem test_slt : regAfter 0x0022182A 0x80000000#32 0x7FFFFFFF#32 3#5 = some (1#32, 0x104#32, 0x108#32) := by decide
/-- L20. -/
theorem test_sltu : regAfter 0x0022182B 0xFFFFFFFF#32 1#32 3#5 = some (0#32, 0x104#32, 0x108#32) := by decide
/-- L24. -/
theorem test_slti : regAfter 0x28228000 0xFFFF8000#32 0xCCCCCCCC#32 2#5 = some (0#32, 0x104#32, 0x108#32) := by decide
/-- L25. -/
theorem test_sltiu : regAfter 0x2C22FFFF 5#32 0xCCCCCCCC#32 2#5 = some (1#32, 0x104#32, 0x108#32) := by decide
/-- L26. -/
theorem test_sltiu_equal : regAfter 0x2C22FFFF 0xFFFFFFFF#32 0xCCCCCCCC#32 2#5 = some (0#32, 0x104#32, 0x108#32) :=
  by decide
/-- B1, first step. -/
theorem test_beq : regAfter 0x10220003 5#32 5#32 0#5 = some (0#32, 0x104#32, 0x110#32) := by decide
/-- B2, first step. -/
theorem test_beq_not : regAfter 0x10220003 5#32 6#32 0#5 = some (0#32, 0x104#32, 0x108#32) := by decide
/-- B3, first step. -/
theorem test_bne : regAfter 0x1422FFFF 5#32 6#32 0#5 = some (0#32, 0x104#32, 0x100#32) := by decide
/-- B9, first step. -/
theorem test_blez : regAfter 0x18200002 0x80000000#32 0#32 0#5 = some (0#32, 0x104#32, 0x10C#32) := by decide
/-- B11, first step. -/
theorem test_blez_rt : regAfter 0x18220002 1#32 1#32 0#5 = some (0#32, 0x104#32, 0x108#32) := by decide
/-- B12, first step. -/
theorem test_bgtz : regAfter 0x1C200002 1#32 0#32 0#5 = some (0#32, 0x104#32, 0x10C#32) := by decide
/-- B13, first step. -/
theorem test_bgtz_zero : regAfter 0x1C200002 0#32 0#32 0#5 = some (0#32, 0x104#32, 0x108#32) := by decide
/-- B15, first step. -/
theorem test_bltz : regAfter 0x04200002 0xFFFFFFFF#32 0#32 0#5 = some (0#32, 0x104#32, 0x10C#32) := by decide
/-- B16, first step. -/
theorem test_bltz_zero : regAfter 0x04200002 0#32 0#32 0#5 = some (0#32, 0x104#32, 0x108#32) := by decide
/-- B17, first step. -/
theorem test_bgez : regAfter 0x04210002 0#32 0#32 0#5 = some (0#32, 0x104#32, 0x10C#32) := by decide
/-- B18, first step. -/
theorem test_bgez_not : regAfter 0x04210002 0x80000000#32 0#32 0#5 = some (0#32, 0x104#32, 0x108#32) := by decide
/-- B19, first step. -/
theorem test_bltzal : regAfter 0x04300002 0xFFFFFFFF#32 0#32 31#5 = some (0x108#32, 0x104#32, 0x10C#32) := by decide
/-- B20, first step. -/
theorem test_bltzal_not : regAfter 0x04300002 1#32 0#32 31#5 = some (0x108#32, 0x104#32, 0x108#32) := by decide
/-- B22, first step. -/
theorem test_bgezal_r31 : regAfter 0x07F10002 0xFFFFFFFF#32 0#32 31#5 = some (0x108#32, 0x104#32, 0x108#32) := by decide
/-- B23, first step. -/
theorem test_bgezal : regAfter 0x07F10002 5#32 0#32 31#5 = some (0x108#32, 0x104#32, 0x10C#32) := by decide
/-- B24, first step. -/
theorem test_j : regAfter 0x08000040 0#32 0#32 0#5 = some (0#32, 0x104#32, 0x100#32) := by decide
/-- B35. -/
theorem test_jal : regAfter 0x0FFFFFFF 0#32 0#32 31#5 = some (0x108#32, 0x104#32, 0x0FFFFFFC#32) := by decide
/-- B26, first step. -/
theorem test_jr : regAfter 0x03E00008 0x200#32 0#32 31#5 = some (0x200#32, 0x104#32, 0x200#32) := by decide
/-- B27, first step, with r2 in the rt field. -/
theorem test_jr_rt : regAfter 0x03E20008 0x200#32 0x10#32 31#5 = some (0x200#32, 0x104#32, 0x210#32) := by decide
/-- M1, at 0x1004. -/
theorem test_lb : regAfter 0x80220004 0x1000#32 0xCCCCCCCC#32 2#5 = some (0xFFFFFF88#32, 0x104#32, 0x108#32) :=
  by decide
/-- M3. -/
theorem test_lb_negative : regAfter 0x8022FFFF 0x1002#32 0xCCCCCCCC#32 2#5 = some (0x22#32, 0x104#32, 0x108#32) :=
  by decide
/-- M2, at 0x1004. -/
theorem test_lbu : regAfter 0x90220004 0x1000#32 0xCCCCCCCC#32 2#5 = some (0x88#32, 0x104#32, 0x108#32) := by decide
/-- M29. -/
theorem test_lw_wraps : regAfter 0x8C221001 0xFFFFFFFF#32 0xCCCCCCCC#32 2#5 = some (0x11223344#32, 0x104#32, 0x108#32) :=
  by decide
/-- M9. -/
theorem test_lw_misaligned : failOf 0x8C220002 0x10000#32 0xCCCCCCCC#32 = some .invalidAlignment := by decide
/-- M11. -/
theorem test_lbu_outside : failOf 0x90220000 0x10000#32 0xCCCCCCCC#32 = some .invalidAddress := by decide
/-- M14. -/
theorem test_lwl : regAfter 0x88220001 0x1000#32 0xAABBCCDD#32 2#5 = some (0x223344DD#32, 0x104#32, 0x108#32) :=
  by decide
/-- M16. -/
theorem test_lwl_3 : regAfter 0x88220003 0x1000#32 0xAABBCCDD#32 2#5 = some (0x44BBCCDD#32, 0x104#32, 0x108#32) :=
  by decide
/-- M18. -/
theorem test_lwr : regAfter 0x98220001 0x1000#32 0xAABBCCDD#32 2#5 = some (0xAABB1122#32, 0x104#32, 0x108#32) :=
  by decide
/-- M17. -/
theorem test_lwr_0 : regAfter 0x98220000 0x1000#32 0xAABBCCDD#32 2#5 = some (0xAABBCC11#32, 0x104#32, 0x108#32) :=
  by decide
/-- M23. -/
theorem test_sb : memAfter 0xA0220001 0x1000#32 0xDEADBEEF#32 = some 0x11EF3344#32 := by decide
/-- M24. -/
theorem test_sh : memAfter 0xA4220002 0x1000#32 0xDEADBEEF#32 = some 0x1122BEEF#32 := by decide
/-- M25. -/
theorem test_sh_odd : failOf 0xA4220001 0x1000#32 0xDEADBEEF#32 = some .invalidAlignment := by decide
/-- M26. -/
theorem test_sw : memAfter 0xAC220000 0x1000#32 0xDEADBEEF#32 = some 0xDEADBEEF#32 := by decide
/-- M28. -/
theorem test_sw_outside : failOf 0xAC220000 0x10000#32 0xDEADBEEF#32 = some .invalidAddress := by decide

/-! ## Fetch, reset and the host's operations -/

/-- R175: the first step from reset fetches address 0 and leaves `pc = 0`, `npc = 4`. -/
theorem test_first_step : (nextState? (step State.reset)).map (fun t => (t.pc, t.npc)) = some (0#32, 4#32) := by decide
/-- The host's query: a word placed by `withFetchWord` is what the next step runs (5 into r1, R110). -/
theorem test_withFetchWord : (nextState? (step (State.reset.withFetchWord 32 0x24010005))).map (fun t => t.readReg 1#5) =
    some 5#32 := by decide
/-- F3: misaligned and out of bounds: alignment first. -/
theorem test_fetch_order : faultOf? (step (State.reset.setPc 0x10002#32)) = some .invalidAlignment := by decide
/-- F2. -/
theorem test_fetch_outside : faultOf? (step (State.reset.setPc 0x10000#32)) = some .invalidAddress := by decide
/-- H14: `addr + len` does not wrap. -/
theorem test_fetch_top : faultOf? (step (State.reset.setPc 0xFFFFFFFC#32)) = some .invalidAddress := by decide
/-- F7: a failed decode leaves the word in `ir`. -/
theorem test_failed_ir : (afterFailedStep (vec 0x0000000C 0#32 0#32)).ir = 0x0000000C#32 := by decide
/-- H3: the end of the span must be block-aligned too. -/
theorem test_block_end : State.reset.mem.blockRead 0x100 2 = .error .invalidAlignment := by decide
/-- H5, H6: the last word, and nothing at the end of the store. -/
theorem test_block_last : State.reset.mem.blockRead 0xFFFC 4 = .ok [0#8, 0#8, 0#8, 0#8] := by decide
theorem test_block_empty : State.reset.mem.blockRead 0x10000 0 = .ok [] := by decide
/-- H12. -/
theorem test_get_register_32 : getRegister 32 (.ready State.reset) = .ok (.ready State.reset, .error .invalidArgument) := by
  decide
/-- H13. -/
theorem test_set_pc : (State.reset.setPc 0x200#32).npc = 0x204#32 := by decide
/-- D31: a run ends at the first failed step; `vec` holds an ADD that overflows. -/
theorem test_run_ends : (match runBudget 3 (.ready (vec 0x00221820 0x7FFFFFFF#32 1#32)) with
    | .ok (_, .error e) => some e
    | _ => none) = some .arithmeticOverflow := by decide
/-- The memory keeps its canonical form: writing the background removes the cell. -/
theorem test_canonical : ((Memory.created 16 4).setByte 3 7#8).setByte 3 0#8 = Memory.created 16 4 := by decide

/-! ## Witnesses: hypotheses of the statements that a concrete state and operands meet

One theorem per statement with hypotheses, one per clause where it has several, at a boundary of each range. -/

/-- An outcome with a next state is that next state. -/
theorem exists_next {o : Answer} (h : (nextState? o).isSome = true) : ∃ t, o = .next t := by
  cases o with
  | next t => exact ⟨t, rfl⟩
  | fault e => cases h
  | refused r => cases h

/-- The state after a step, or the state itself. -/
def after (s : State) : State := (nextState? (step s)).getD s

theorem step_after {s : State} (h : (nextState? (step s)).isSome = true) : step s = .next (after s) := by
  unfold after
  cases hs : step s with
  | next t => rfl
  | fault e => rw [hs] at h; cases h
  | refused r => rw [hs] at h; cases h

/-- A state with two words at 0x100 and 0x104. -/
def vec2 (w v : Nat) (r1 r2 : Word) : State :=
  { vec w r1 r2 with mem := (vec w r1 r2).mem.setBytes 0x104 (tableWordBytes 32 v) }

/-- The reset state with one word at address 0. -/
def atZero (w : Nat) : State := State.reset.withFetchWord 32 w

/-- A store with another block size, and a state bound to it. -/
def otherBlock : State := { State.reset with mem := Memory.created 0x100 8 }

theorem witness_zero_register : (31#5 : RegIdx) ≠ 0#5 := by decide

/-- `ADDIU r1, r1, 1` at 0 after reset, as in section 3.3 of 95_test_vectors.md. -/
theorem witness_after_reset_sequential : ∃ t u, (atZero 0x24210001).At (.addiu 1#5 1#5 1#16) ∧
    (atZero 0x24210001).pc = 0#32 ∧ (atZero 0x24210001).npc = 0#32 ∧ step (atZero 0x24210001) = .next t ∧
    isStore (.addiu 1#5 1#5 1#16) = false ∧ isControl (.addiu 1#5 1#5 1#16) = false ∧ step t = .next u :=
  ⟨after (atZero 0x24210001), after (after (atZero 0x24210001)), ⟨by decide, by decide, by decide, by decide⟩, by decide,
    by decide, step_after (by decide), by decide, by decide, step_after (by decide)⟩

/-- `J 0x40` at 0 after reset. -/
theorem witness_after_reset_jump : ∃ t, (atZero 0x08000040).At (.j 0x40#26) ∧ (atZero 0x08000040).pc = 0#32 ∧
    (atZero 0x08000040).npc = 0#32 ∧ step (atZero 0x08000040) = .next t ∧ isControl (.j 0x40#26) = true :=
  ⟨after (atZero 0x08000040), ⟨by decide, by decide, by decide, by decide⟩, by decide, by decide, step_after (by decide),
    by decide⟩

/-- `SB r0, 0(r0)` at 0 after reset: the store overwrites its own opcode byte. -/
theorem witness_after_reset_store : ∃ t, (atZero 0xA0000000).At (.sb 0#5 0#5 0#16) ∧ (atZero 0xA0000000).pc = 0#32 ∧
    (atZero 0xA0000000).npc = 0#32 ∧ step (atZero 0xA0000000) = .next t :=
  ⟨after (atZero 0xA0000000), ⟨by decide, by decide, by decide, by decide⟩, by decide, by decide, step_after (by decide)⟩

theorem witness_block_misaligned_start : 3 % (Memory.created 8 4).blockSize ≠ 0 := by decide
theorem witness_block_misaligned_end : (4 + [0#8].length) % (Memory.created 8 4).blockSize ≠ 0 := by decide
theorem witness_block_outside : 8 % (Memory.created 8 4).blockSize = 0 ∧
    (8 + [1#8, 2#8, 3#8, 4#8].length) % (Memory.created 8 4).blockSize = 0 ∧
    (Memory.created 8 4).size < 8 + [1#8, 2#8, 3#8, 4#8].length := by decide
theorem witness_block_last_word : 4 % (Memory.created 8 4).blockSize = 0 ∧
    (4 + [1#8, 2#8, 3#8, 4#8].length) % (Memory.created 8 4).blockSize = 0 ∧
    4 + [1#8, 2#8, 3#8, 4#8].length ≤ (Memory.created 8 4).size := by decide

theorem witness_block_write : (∃ m', (Memory.created 8 4).blockWrite 4 [1#8, 2#8, 3#8, 4#8] = .ok m') ∧ 0 + 4 ≤ 4 ∧
    ∃ out, (Memory.created 8 4).blockRead 4 4 = .ok out := ⟨⟨_, rfl⟩, by decide, ⟨_, rfl⟩⟩

/-- The same bytes written in two orders. -/
theorem witness_canonical : (((Memory.created 8 4).setByte 1 5#8).setByte 0 6#8).wf ∧
    (((Memory.created 8 4).setByte 0 6#8).setByte 1 5#8).wf ∧
    ∀ a, (((Memory.created 8 4).setByte 1 5#8).setByte 0 6#8).byteAt a =
      (((Memory.created 8 4).setByte 0 6#8).setByte 1 5#8).byteAt a := by
  refine ⟨by decide, by decide, fun a => ?_⟩
  simp only [Memory.byteAt_setByte]
  split <;> split <;> first | rfl | omega

theorem witness_views : (State.reset.mem.blockSize = 4 ∧ (0xFFFC#32).toNat % 4 = 0 ∧
    (0xFFFC#32).toNat + 4 ≤ State.reset.mem.size) ∧ 3 < 4 ∧ 2 < 4 ∧ 2 % 2 = 0 := by decide

theorem witness_decodes : decode 0xAFFFFFFF#32 = .ok (.sw 31#5 31#5 0xFFFF#16) := by decide
theorem witness_table_row : (⟨"SLL", 0xFFE0003F#32, 0x00000000#32⟩ : OpcodeRow) ∈ opcodeTable ∧
    (⟨"SLL", 0xFFE0003F#32, 0x00000000#32⟩ : OpcodeRow).matchesWord 0x001FFFC0#32 = true := by decide

theorem witness_unused_funct : (0x0000003F#32).extractLsb' 26 6 = 0x00#6 ∧
    ((0x0000003F#32).extractLsb' 0 6).toNat ∈ [0x01, 0x05, 0x07] ++ List.range' 0x09 7 ++ [0x11] ++ List.range' 0x13 5
      ++ List.range' 0x1C 4 ++ List.range' 0x27 3 ++ List.range' 0x2C 20 := by decide
theorem witness_unused_regimm : (0x041F0000#32).extractLsb' 26 6 = 0x01#6 ∧
    (0x041F0000#32).extractLsb' 16 5 ∉ [0x00#5, 0x01#5, 0x10#5, 0x11#5] := by decide
theorem witness_unused_opcode : ((0xFC000000#32).extractLsb' 26 6).toNat ∈
    List.range' 0x10 16 ++ [0x21, 0x25, 0x27, 0x2A] ++ List.range' 0x2C 20 := by decide

theorem witness_reserved_shift : 0x03#6 ∈ [0x00#6, 0x02#6, 0x03#6] ∧ 1#5 ≠ 0#5 := by decide
theorem witness_reserved_plain : 0x3F#6 ∉ [0x00#6, 0x02#6, 0x03#6] ∧ 31#5 ≠ 0#5 := by decide
theorem witness_reserved_mulDiv : 0x1B#6 ∈ [0x18#6, 0x19#6, 0x1A#6, 0x1B#6] ∧ 1#5 ≠ 0#5 := by decide
theorem witness_reserved_move : 0x12#6 ∈ [0x10#6, 0x12#6] ∧ (0#5 ≠ 0#5 ∨ 1#5 ≠ 0#5) := by decide

theorem witness_has_field : (Instr.jr 31#5 0#5 0#5).format.hasField .funct = true := by decide
theorem witness_lacks_field : (Instr.jr 31#5 0#5 0#5).format.hasField .target = false := by decide

theorem witness_at : (vec 0x10220003 5#32 5#32).At (.beq 1#5 2#5 3#16) := ⟨by decide, by decide, by decide, by decide⟩

theorem witness_fetch_misaligned : (State.reset.setPc 0x10001#32).mem.blockSize = 4 ∧
    (State.reset.setPc 0x10001#32).pc.toNat % 4 ≠ 0 := by decide
theorem witness_fetch_outside : (State.reset.setPc 0x10000#32).mem.blockSize = 4 ∧
    (State.reset.setPc 0x10000#32).pc.toNat % 4 = 0 ∧
    (State.reset.setPc 0x10000#32).mem.size < (State.reset.setPc 0x10000#32).pc.toNat + 4 := by decide
/-- The last word of the store holds no instruction. -/
theorem witness_fetch_undecodable : ((State.reset.setPc 0xFFFC#32).withFetchWord 32 0xFFFFFFFF).mem.blockSize = 4 ∧
    ((State.reset.setPc 0xFFFC#32).withFetchWord 32 0xFFFFFFFF).pc.toNat % 4 = 0 ∧
    ((State.reset.setPc 0xFFFC#32).withFetchWord 32 0xFFFFFFFF).pc.toNat + 4 ≤
      ((State.reset.setPc 0xFFFC#32).withFetchWord 32 0xFFFFFFFF).mem.size ∧
    decode (((State.reset.setPc 0xFFFC#32).withFetchWord 32 0xFFFFFFFF).mem.wordAt
      ((State.reset.setPc 0xFFFC#32).withFetchWord 32 0xFFFFFFFF).pc.toNat) = .error .invalidInstruction := by decide

theorem witness_step_refuses : step otherBlock = .refused .blockSizeNotFour := rfl

theorem witness_step_fails : step (vec 0x00221820 0x7FFFFFFF#32 1#32) = .fault .arithmeticOverflow := rfl

theorem witness_overflow : (vec 0x00221820 0x7FFFFFFF#32 1#32).params.eaOverflowCheck = false ∧
    exec (.add 3#5 1#5 2#5) (vec 0x00221820 0x7FFFFFFF#32 1#32) = .fault .arithmeticOverflow := ⟨rfl, rfl⟩

/-- A failed fetch, and a failed instruction after a fetch. -/
theorem witness_failed_step : (∃ c e f, stepCall (.ready (State.reset.setPc 2#32)) = .ok (c, .error e) ∧
      fetch (State.reset.setPc 2#32) = .error f) ∧
    ∃ c e v, stepCall (.ready (vec 0x00221820 0x7FFFFFFF#32 1#32)) = .ok (c, .error e) ∧
      fetch (vec 0x00221820 0x7FFFFFFF#32 1#32) = .ok v :=
  ⟨⟨_, _, _, rfl, rfl⟩, ⟨_, _, _, rfl, rfl⟩⟩

theorem witness_moves_pc : ∃ t, exec (.addu 3#5 1#5 2#5) (vec 0 1#32 2#32) = .next t ∧
    isControl (.addu 3#5 1#5 2#5) = false := ⟨_, rfl, rfl⟩

/-- W5: `BEQ r0, r0, 3` with a NOP in the slot. -/
theorem witness_delay_slot : ∃ t u, (vec 0x10000003 0#32 0#32).At (.beq 0#5 0#5 3#16) ∧
    isControl (.beq 0#5 0#5 3#16) = true ∧ step (vec 0x10000003 0#32 0#32) = .next t ∧ step t = .next u ∧
    (vec 0x10000003 0#32 0#32).npc = (vec 0x10000003 0#32 0#32).pc + 4#32 ∧
    takenTarget (.beq 0#5 0#5 3#16) (vec 0x10000003 0#32 0#32) = some 0x110#32 :=
  ⟨after (vec 0x10000003 0#32 0#32), after (after (vec 0x10000003 0#32 0#32)),
    ⟨by decide, by decide, by decide, by decide⟩, by decide, step_after (by decide), step_after (by decide), by decide,
    by decide⟩

/-- The hypotheses of the delay-slot statement for `BEQ r0, r0, 3` at 0x100 and the given word in the slot. -/
def SlotMet (v : Nat) (r1 r2 : Word) (j : Instr) : Prop :=
  ∃ t u w, (vec2 0x10000003 v r1 r2).At (.beq 0#5 0#5 3#16) ∧
    takenTarget (.beq 0#5 0#5 3#16) (vec2 0x10000003 v r1 r2) = some 0x110#32 ∧
    step (vec2 0x10000003 v r1 r2) = .next t ∧ t.At j ∧ isControl j = true ∧ step t = .next u ∧ step u = .next w ∧
    t.readReg 1#5 = r1 ∧ t.readReg 2#5 = r2 ∧ t.params.linkOnNotTaken = true

/-- B31: `BEQ r0, r0, 7` in the slot; and `BEQ r1, r2, 7` with equal registers. -/
theorem witness_slot_beq : SlotMet 0x10220007 5#32 5#32 (.beq 1#5 2#5 7#16) :=
  ⟨after (vec2 0x10000003 0x10220007 5#32 5#32), after (after (vec2 0x10000003 0x10220007 5#32 5#32)),
    after (after (after (vec2 0x10000003 0x10220007 5#32 5#32))), ⟨by decide, by decide, by decide, by decide⟩, by decide,
    step_after (by decide), ⟨by decide, by decide, by decide, by decide⟩, by decide, step_after (by decide),
    step_after (by decide), by decide, by decide, by decide⟩
theorem witness_slot_bne : SlotMet 0x14220007 5#32 6#32 (.bne 1#5 2#5 7#16) ∧ (5#32 : Word) ≠ 6#32 :=
  ⟨⟨after (vec2 0x10000003 0x14220007 5#32 6#32), after (after (vec2 0x10000003 0x14220007 5#32 6#32)),
    after (after (after (vec2 0x10000003 0x14220007 5#32 6#32))), ⟨by decide, by decide, by decide, by decide⟩, by decide,
    step_after (by decide), ⟨by decide, by decide, by decide, by decide⟩, by decide, step_after (by decide),
    step_after (by decide), by decide, by decide, by decide⟩, by decide⟩
theorem witness_slot_blez : SlotMet 0x18200007 0#32 6#32 (.blez 1#5 0#5 7#16) ∧ (0#32 : Word).toInt ≤ 0 :=
  ⟨⟨after (vec2 0x10000003 0x18200007 0#32 6#32), after (after (vec2 0x10000003 0x18200007 0#32 6#32)),
    after (after (after (vec2 0x10000003 0x18200007 0#32 6#32))), ⟨by decide, by decide, by decide, by decide⟩, by decide,
    step_after (by decide), ⟨by decide, by decide, by decide, by decide⟩, by decide, step_after (by decide),
    step_after (by decide), by decide, by decide, by decide⟩, by decide⟩
theorem witness_slot_bgtz : SlotMet 0x1C200007 1#32 6#32 (.bgtz 1#5 0#5 7#16) ∧ 0 < (1#32 : Word).toInt :=
  ⟨⟨after (vec2 0x10000003 0x1C200007 1#32 6#32), after (after (vec2 0x10000003 0x1C200007 1#32 6#32)),
    after (after (after (vec2 0x10000003 0x1C200007 1#32 6#32))), ⟨by decide, by decide, by decide, by decide⟩, by decide,
    step_after (by decide), ⟨by decide, by decide, by decide, by decide⟩, by decide, step_after (by decide),
    step_after (by decide), by decide, by decide, by decide⟩, by decide⟩
/-- BLTZAL with a negative register (the clauses of BLTZ and BLTZAL). -/
theorem witness_slot_bltzal : SlotMet 0x04300007 0xFFFFFFFF#32 6#32 (.bltzal 1#5 7#16) ∧
    (0xFFFFFFFF#32 : Word).toInt < 0 :=
  ⟨⟨after (vec2 0x10000003 0x04300007 0xFFFFFFFF#32 6#32), after (after (vec2 0x10000003 0x04300007 0xFFFFFFFF#32 6#32)),
    after (after (after (vec2 0x10000003 0x04300007 0xFFFFFFFF#32 6#32))), ⟨by decide, by decide, by decide, by decide⟩,
    by decide, step_after (by decide), ⟨by decide, by decide, by decide, by decide⟩, by decide, step_after (by decide),
    step_after (by decide), by decide, by decide, by decide⟩, by decide⟩
/-- P6: BGEZAL in the slot, here with 0 (taken). -/
theorem witness_slot_bgezal : SlotMet 0x04310007 0#32 6#32 (.bgezal 1#5 7#16) ∧ 0 ≤ (0#32 : Word).toInt :=
  ⟨⟨after (vec2 0x10000003 0x04310007 0#32 6#32), after (after (vec2 0x10000003 0x04310007 0#32 6#32)),
    after (after (after (vec2 0x10000003 0x04310007 0#32 6#32))), ⟨by decide, by decide, by decide, by decide⟩,
    by decide, step_after (by decide), ⟨by decide, by decide, by decide, by decide⟩, by decide, step_after (by decide),
    step_after (by decide), by decide, by decide, by decide⟩, by decide⟩
/-- JAL in the slot (the clauses of J and JAL). -/
theorem witness_slot_jal : SlotMet 0x0C000080 0#32 6#32 (.jal 0x80#26) :=
  ⟨after (vec2 0x10000003 0x0C000080 0#32 6#32), after (after (vec2 0x10000003 0x0C000080 0#32 6#32)),
    after (after (after (vec2 0x10000003 0x0C000080 0#32 6#32))), ⟨by decide, by decide, by decide, by decide⟩,
    by decide, step_after (by decide), ⟨by decide, by decide, by decide, by decide⟩, by decide, step_after (by decide),
    step_after (by decide), by decide, by decide, by decide⟩

theorem witness_hilo_not_written : ∃ t, writesHiLo (.mfhi 3#5) = false ∧ exec (.mfhi 3#5) (vec 0 1#32 2#32) = .next t :=
  ⟨_, rfl, rfl⟩
theorem witness_hilo_not_read : readsHiLo (.mult 1#5 2#5) = false ∧
    (∃ t, exec (.mult 1#5 2#5) (vec 0 1#32 2#32) = .next t) ∧ readsHiLo (.add 3#5 1#5 2#5) = false ∧
    ∃ e, exec (.add 3#5 1#5 2#5) (vec 0 0x7FFFFFFF#32 1#32) = .fault e := ⟨rfl, ⟨_, rfl⟩, rfl, ⟨_, rfl⟩⟩

theorem witness_no_store : ∃ t, isStore (.lw 2#5 1#5 0#16) = false ∧
    exec (.lw 2#5 1#5 0#16) (vec 0 0x1000#32 0#32) = .next t :=
  ⟨_, rfl, (exists_next (by decide)).choose_spec⟩

theorem witness_step : ∃ t, step State.reset = .next t := exists_next (by decide)
/-- A step call that answers Ok, one that answers an error, one that is refused. -/
theorem witness_step_call : (∃ t, step State.reset = .next t) ∧
    step (vec 0x00221820 0x7FFFFFFF#32 1#32) = .fault .arithmeticOverflow ∧
    step otherBlock = .refused .blockSizeNotFour := ⟨exists_next (by decide), rfl, rfl⟩

/-- A host call that succeeds and one that fails, on a CPU that was reset and on one that was not. -/
theorem witness_host_call : (∃ d, HostCall (.ready State.reset) d) ∧
    ∃ d, HostCall (.unreset State.reset.params (Memory.created 8 4)) d :=
  ⟨⟨_, .inr (.inr (.inr (.inr (.inr (.inr (.inr (.inl ⟨0x100#32, 4, [1#8, 2#8, 3#8, 4#8], _, rfl⟩)))))))⟩,
    ⟨_, .inr (.inr (.inr (.inr (.inr (.inr (.inr (.inl ⟨8#32, 4, [1#8, 2#8, 3#8, 4#8], _, rfl⟩)))))))⟩⟩

theorem witness_not_destination : ∃ t, exec (.addu 3#5 1#5 2#5) (vec 0 1#32 2#32) = .next t ∧
    destReg (.addu 3#5 1#5 2#5) ≠ some 31#5 := ⟨_, rfl, by decide⟩

theorem witness_unobservable : (∃ t, step State.reset = .next t) ∧
    (∃ e, step (vec 0x00221820 0x7FFFFFFF#32 1#32) = .fault e) ∧ ∃ r, step otherBlock = .refused r :=
  ⟨exists_next (by decide), ⟨_, rfl⟩, ⟨_, rfl⟩⟩

theorem witness_inv : State.reset.Inv ∧ ∃ t, step State.reset = .next t :=
  ⟨⟨by decide, by decide, by decide, by decide⟩, exists_next (by decide)⟩

theorem witness_host_inv : State.reset.Inv ∧ (∃ t, resetCall 7#32 (.ready State.reset) = .ready t) ∧
    (∃ t, setRegister 31 5#32 (.ready State.reset) = .ok (.ready t, .ok ())) ∧
    (∃ t, setPc 0x100#32 (.ready State.reset) = .ok (.ready t, .ok ())) ∧
    ∃ t, memWriteCall 0xFFFC#32 4 [1#8, 2#8, 3#8, 4#8] (.ready State.reset) = .ok (.ready t, .ok ()) :=
  ⟨⟨by decide, by decide, by decide, by decide⟩, ⟨_, rfl⟩, ⟨_, rfl⟩, ⟨_, rfl⟩, ⟨_, rfl⟩⟩

theorem witness_add_fits : FitsSigned32 (((vec 0 0x7FFFFFFE#32 1#32).readReg 1#5).toInt +
    ((vec 0 0x7FFFFFFE#32 1#32).readReg 2#5).toInt) := by unfold FitsSigned32; decide
theorem witness_add_overflows : ¬FitsSigned32 (((vec 0 0x7FFFFFFF#32 1#32).readReg 1#5).toInt +
    ((vec 0 0x7FFFFFFF#32 1#32).readReg 2#5).toInt) := by unfold FitsSigned32; decide
theorem witness_sub_fits : FitsSigned32 (((vec 0 0x80000001#32 1#32).readReg 1#5).toInt -
    ((vec 0 0x80000001#32 1#32).readReg 2#5).toInt) := by unfold FitsSigned32; decide
theorem witness_sub_overflows : ¬FitsSigned32 (((vec 0 0x80000000#32 1#32).readReg 1#5).toInt -
    ((vec 0 0x80000000#32 1#32).readReg 2#5).toInt) := by unfold FitsSigned32; decide
theorem witness_addi_fits : FitsSigned32 (((vec 0 0x80000001#32 1#32).readReg 1#5).toInt + (0xFFFF#16 : Imm16).toInt) := by
  unfold FitsSigned32; decide
theorem witness_addi_overflows :
    ¬FitsSigned32 (((vec 0 0x80000000#32 1#32).readReg 1#5).toInt + (0xFFFF#16 : Imm16).toInt) := by
  unfold FitsSigned32; decide

theorem witness_div_zero : (vec 0 7#32 0#32).readReg 2#5 = 0#32 := by decide
theorem witness_div : (vec 0 0x80000000#32 1#32).readReg 2#5 ≠ 0#32 ∧
    ¬((vec 0 0x80000000#32 1#32).readReg 1#5 = 0x80000000#32 ∧
      (vec 0 0x80000000#32 1#32).readReg 2#5 = 0xFFFFFFFF#32) := by decide
/-- A26. -/
theorem witness_div_min : (vec 0 0x80000000#32 0xFFFFFFFF#32).readReg 1#5 = 0x80000000#32 ∧
    (vec 0 0x80000000#32 0xFFFFFFFF#32).readReg 2#5 = 0xFFFFFFFF#32 := by decide

/-- `BLTZAL r1, 2` and `BGEZAL r1, 2` not taken, without `LINK_ON_NOT_TAKEN`: r31 keeps its value (R140, R141). -/
def unlinked (w : Nat) (r1 : Word) : State :=
  { vec w r1 0#32 with params := { linkOnNotTaken := false, eaOverflowCheck := false } }
theorem witness_not_linked :
    (nextState? (step (unlinked 0x04300002 1#32))).map (fun t => (t.readReg 31#5, t.pc, t.npc)) =
      some (1#32, 0x104#32, 0x108#32) ∧
    (nextState? (step (unlinked 0x04310002 0xFFFFFFFF#32))).map (fun t => (t.readReg 31#5, t.pc, t.npc)) =
      some (0xFFFFFFFF#32, 0x104#32, 0x108#32) := by decide
/-- Taken, without `LINK_ON_NOT_TAKEN`: r31 receives `old_NPC + 4`. -/
theorem witness_linked_when_taken :
    (nextState? (step (unlinked 0x04300002 0xFFFFFFFF#32))).map (fun t => (t.readReg 31#5, t.pc, t.npc)) =
      some (0x108#32, 0x104#32, 0x10C#32) ∧
    (nextState? (step (unlinked 0x04310002 0#32))).map (fun t => (t.readReg 31#5, t.pc, t.npc)) =
      some (0x108#32, 0x104#32, 0x10C#32) := by decide

theorem witness_jr : (vec 0 0x200#32 0#32).params.eaOverflowCheck = false := rfl
/-- A state whose `EA_OVERFLOW_CHECK` is set. -/
def checked (r1 : Word) : State := { vec 0 r1 1#32 with params := { linkOnNotTaken := true, eaOverflowCheck := true } }
theorem witness_jr_overflows : (checked 0x7FFFFFFF#32).params.eaOverflowCheck = true ∧
    ¬FitsSigned32 (((checked 0x7FFFFFFF#32).readReg 1#5).toInt + ((checked 0x7FFFFFFF#32).readReg 2#5).toInt) := by
  unfold FitsSigned32; decide
theorem witness_ea_fits : (checked 0x7FFFFFFE#32).params.eaOverflowCheck = true ∧
    FitsSigned32 (((checked 0x7FFFFFFE#32).readReg 1#5).toInt + (1#16 : Imm16).toInt) := by unfold FitsSigned32; decide
theorem witness_ea_overflows : (checked 0x7FFFFFFF#32).params.eaOverflowCheck = true ∧
    ¬FitsSigned32 (((checked 0x7FFFFFFF#32).readReg 1#5).toInt + (1#16 : Imm16).toInt) ∧
    Instr.lb 2#5 1#5 1#16 ∈ [Instr.lb 2#5 1#5 1#16, .lbu 2#5 1#5 1#16, .lw 2#5 1#5 1#16, .lwl 2#5 1#5 1#16,
      .lwr 2#5 1#5 1#16, .sb 2#5 1#5 1#16, .sh 2#5 1#5 1#16, .sw 2#5 1#5 1#16] := by unfold FitsSigned32; decide

/-- The hypotheses that every statement on loads and stores shares, with the effective address in r1. -/
theorem witness_access (ea : Word) : (vec 0 ea 0#32).mem.blockSize = 4 := rfl
/-- The last byte of the store: byte accesses and the unaligned loads (M10). -/
theorem witness_last_byte : effectiveAddress 1#5 0#16 (vec 0 0xFFFF#32 0#32) = .ok 0xFFFF#32 ∧
    (0xFFFF#32).toNat - (0xFFFF#32).toNat % 4 + 4 ≤ (vec 0 0xFFFF#32 0#32).mem.size := by decide
/-- The first byte outside (M11). -/
theorem witness_byte_outside : effectiveAddress 1#5 0#16 (vec 0 0x10000#32 0#32) = .ok 0x10000#32 ∧
    (vec 0 0x10000#32 0#32).mem.size < (0x10000#32).toNat - (0x10000#32).toNat % 4 + 4 ∧
    (0x10000#32).toNat % 2 = 0 ∧ (0x10000#32).toNat % 4 = 0 := by decide
/-- U18: a byte below the size whose aligned word is not within the store. -/
theorem witness_partial_word :
    effectiveAddress 1#5 0#16 { vec 0 5#32 0#32 with mem := Memory.created 6 4 } = .ok 5#32 ∧ 5 < 6 ∧
      (Memory.created 6 4).size < (5#32).toNat - (5#32).toNat % 4 + 4 ∧
      faultOf? (exec (.lb 2#5 1#5 0#16) { vec 0 5#32 0#32 with mem := Memory.created 6 4 }) = some .invalidAddress := by
  decide
/-- The last word of the store (M8), also as the address of the next instruction. -/
theorem witness_last_word : effectiveAddress 1#5 0#16 (vec 0 0xFFFC#32 0#32) = .ok 0xFFFC#32 ∧
    (0xFFFC#32).toNat % 2 = 0 ∧ (0xFFFC#32).toNat % 4 = 0 ∧ (0xFFFC#32).toNat + 4 ≤ (vec 0 0xFFFC#32 0#32).mem.size ∧
    (0xFFFC#32).toNat - (0xFFFC#32).toNat % 4 + 4 ≤ (vec 0 0xFFFC#32 0#32).mem.size := by decide
/-- The last half of the store, an odd address, and a misaligned one outside (M9, M25). -/
theorem witness_half_and_misaligned : (effectiveAddress 1#5 0#16 (vec 0 0xFFFE#32 0#32) = .ok 0xFFFE#32 ∧
      (0xFFFE#32).toNat % 2 = 0 ∧ (0xFFFE#32).toNat - (0xFFFE#32).toNat % 4 + 4 ≤ (vec 0 0xFFFE#32 0#32).mem.size) ∧
    (effectiveAddress 1#5 0#16 (vec 0 0x1001#32 0#32) = .ok 0x1001#32 ∧ (0x1001#32).toNat % 2 ≠ 0) ∧
    (effectiveAddress 1#5 0#16 (vec 0 0x10002#32 0#32) = .ok 0x10002#32 ∧ (0x10002#32).toNat % 4 ≠ 0) := by decide
/-- M33: the word after the store is the one it writes. -/
theorem witness_store_next : (vec 0 0x104#32 0#32).mem.blockSize = 4 ∧
    effectiveAddress 1#5 0#16 (vec 0 0x104#32 0#32) = .ok 0x104#32 ∧ (0x104#32).toNat % 4 = 0 ∧
    (0x104#32).toNat + 4 ≤ (vec 0 0x104#32 0#32).mem.size ∧ (vec 0 0x104#32 0#32).npc = 0x104#32 := by decide
/-- M21: the misaligned word at 0x1001. -/
theorem witness_lwl_lwr : (vec 0 0x1000#32 0#32).mem.blockSize = 4 ∧
    (vec 0 0x1000#32 0#32).params.eaOverflowCheck = false ∧ 2#5 ≠ 0#5 ∧ 2#5 ≠ 1#5 ∧
    (4#16 : Imm16).toInt = (1#16 : Imm16).toInt + 3 ∧
    ((vec 0 0x1000#32 0#32).readReg 1#5 + (1#16).signExtend 32).toNat + 3 < 2 ^ 32 ∧
    ((vec 0 0x1000#32 0#32).readReg 1#5 + (4#16).signExtend 32).toNat -
      ((vec 0 0x1000#32 0#32).readReg 1#5 + (4#16).signExtend 32).toNat % 4 + 4 ≤ (vec 0 0x1000#32 0#32).mem.size := by
  decide

theorem witness_register_index : 31 < 32 ∧ 32 ≤ 32 ∧ 0 < 1 := by decide
theorem witness_set_pc : State.reset.mem.blockSize = 4 ∧ (0x102#32).toNat % 4 ≠ 0 ∧ (0x10000#32).toNat % 4 = 0 ∧
    State.reset.mem.size < (0x10000#32).toNat + 4 := by decide
/-- The last word of the store, in a CPU that was reset and in one of block size 8 that was not. -/
theorem witness_host_memory_inside : ((0xFFFC#32).toNat % (Cpu.ready State.reset).memory.blockSize = 0 ∧
      ((0xFFFC#32).toNat + 4) % (Cpu.ready State.reset).memory.blockSize = 0 ∧
      (0xFFFC#32).toNat + 4 ≤ (Cpu.ready State.reset).memory.size ∧ 4 ≤ [1#8, 2#8, 3#8, 4#8].length) ∧
    (8#32).toNat % (Cpu.unreset State.reset.params (Memory.created 16 8)).memory.blockSize = 0 ∧
      ((8#32).toNat + 8) % (Cpu.unreset State.reset.params (Memory.created 16 8)).memory.blockSize = 0 ∧
      (8#32).toNat + 8 ≤ (Cpu.unreset State.reset.params (Memory.created 16 8)).memory.size ∧
      8 ≤ (List.replicate 8 1#8).length := by decide

/-- A start and an end off the block, the first word past the store, and too few bytes. -/
theorem witness_host_memory_fails : (2#32).toNat % (Cpu.ready State.reset).memory.blockSize ≠ 0 ∧
    ((4#32).toNat + 1) % (Cpu.ready State.reset).memory.blockSize ≠ 0 ∧ 1 ≤ [1#8].length ∧
    ((0x10000#32).toNat % (Cpu.ready State.reset).memory.blockSize = 0 ∧
      ((0x10000#32).toNat + 4) % (Cpu.ready State.reset).memory.blockSize = 0 ∧
      (Cpu.ready State.reset).memory.size < (0x10000#32).toNat + 4 ∧ 4 ≤ [1#8, 2#8, 3#8, 4#8].length) ∧
    [1#8, 2#8, 3#8].length < 4 := by decide
theorem witness_created : 0 < 1 ∧ 1 ≠ 4 ∧ 0 < 4 := by decide

end Sys2Proof.Tests
end

section
/-!
SUPPORT. The proofs of the statements on the state (10_state.md). First the laws they need and the library of Laws/ does
not have: the invariant under each way of changing a state, what an instruction does to `npc`, HI, LO and `lmd`, what it
answers when HI, LO and `lmd` hold other words, one equation per outcome of a step, and the host's register and creation
calls. Then the statements, each assembled from these.
-/

namespace Sys2Proof.Machine

/-! ## The invariant under each way of changing a state -/

/-- The invariant speaks of the cell of r0 and of memory alone. -/
theorem State.Inv.congr {s t : State} (hs : s.Inv) (hcell : t.regs[0] = s.regs[0]) (hmem : t.mem = s.mem) : t.Inv where
  zeroCell := hcell.trans hs.zeroCell
  canonical := hmem ▸ hs.canonical
  exists_ := hmem ▸ hs.exists_
  block := hmem ▸ hs.block

theorem State.Inv.writeReg {s : State} (hs : s.Inv) (r : RegIdx) (v : Word) : (s.writeReg r v).Inv :=
  hs.congr (s.writeReg_zeroCell r v) (s.writeReg_mem r v)

/-- Writing bytes that exist keeps the invariant (R40). -/
theorem State.Inv.setBytes {s : State} (hs : s.Inv) {a : Nat} {bytes : List Byte}
    (hin : a + bytes.length ≤ s.mem.size) : State.Inv { s with mem := s.mem.setBytes a bytes } where
  zeroCell := hs.zeroCell
  canonical := Memory.setBytes_wf hs.canonical a bytes
  exists_ := Memory.setBytes_inBounds hs.exists_ hin
  block := (Memory.setBytes_blockSize _ _ _).trans hs.block

/-- `nextSeq` writes `pc` and `npc` only, which the invariant does not name. -/
theorem State.Inv.nextSeq {s : State} (hs : s.Inv) : s.nextSeq.Inv := hs.congr rfl rfl

/-- R173: `reset` zeroes the registers and keeps memory. -/
theorem State.Inv.resetState {s : State} (hs : s.Inv) (d : Word) : (resetState d s.params s.mem).Inv :=
  hs.congr (by simp [Machine.resetState, hs.zeroCell]) rfl

/-- Every instruction keeps the invariant: only a store touches memory, and it writes bytes that exist. -/
theorem exec_keeps_inv {i : Instr} {s t : State} (hs : s.Inv) (h : exec i s = .next t) : t.Inv := by
  rcases exec_shape h with ⟨_, _, _, hwrite⟩ | ⟨_, _, hhilo⟩ | ⟨_, _, hcontrol⟩ | ⟨_, _, hstore⟩
  · obtain ⟨rd, v, l, _, rfl⟩ := hwrite
    have staged : State.Inv { s with lmd := l } := hs.congr rfl rfl
    exact (staged.writeReg rd v).nextSeq
  · obtain ⟨_, h, l, rfl⟩ := hhilo
    exact hs.congr rfl rfl
  · obtain ⟨_, target, rfl | ⟨_, rfl⟩⟩ := hcontrol
    · exact hs.congr rfl rfl
    · exact hs.congr s.link_zeroCell s.link_mem
  · obtain ⟨_, ea, n, v, m, hm, rfl⟩ := hstore
    obtain ⟨a, bytes, rfl, hin⟩ := Memory.memWrite_inv hm
    exact (hs.setBytes hin).nextSeq

/-- A `mem_write` that succeeds wrote bytes that exist, and nothing but memory. -/
theorem memWriteCall_ready_inv {a : Word} {n : Nat} {bytes : List Byte} {s t : State}
    (h : memWriteCall a n bytes (.ready s) = .ok (.ready t, .ok ())) :
    a.toNat + (bytes.take n).length ≤ s.mem.size ∧
      t = { s with mem := s.mem.setBytes a.toNat (bytes.take n) } := by
  unfold memWriteCall at h
  split at h
  · cases h
  · split at h
    · cases h
    · rename_i m hm
      obtain ⟨hspan, rfl⟩ := Memory.blockWrite_inv hm
      cases h
      exact ⟨(Memory.checkSpan_inv hspan).2.2, rfl⟩

/-! ## `npc`, HI and LO after an instruction -/

/-- R96: an instruction that is no branch or jump advances `npc` by 4. -/
theorem exec_npc_of_not_control {i : Instr} {s t : State} (hi : isControl i = false) (h : exec i s = .next t) :
    t.npc = s.npc + 4#32 := by
  rcases exec_shape h with ⟨_, _, _, hwrite⟩ | ⟨_, _, hhilo⟩ | ⟨_, _, hcontrol⟩ | ⟨_, _, hstore⟩
  · obtain ⟨rd, v, l, _, rfl⟩ := hwrite
    simp
  · obtain ⟨_, h, l, rfl⟩ := hhilo
    simp
  · obtain ⟨hi', _⟩ := hcontrol
    rw [hi] at hi'
    cases hi'
  · obtain ⟨_, ea, n, v, m, _, rfl⟩ := hstore
    simp

/-- R24: an instruction outside the multiplies and divides leaves HI and LO. -/
theorem exec_hiLo_of_not_writesHiLo {i : Instr} {s t : State} (hi : writesHiLo i = false) (h : exec i s = .next t) :
    t.hi = s.hi ∧ t.lo = s.lo := by
  rcases exec_shape h with ⟨_, _, _, hwrite⟩ | ⟨_, _, hhilo⟩ | ⟨_, _, hcontrol⟩ | ⟨_, _, hstore⟩
  · obtain ⟨rd, v, l, _, rfl⟩ := hwrite
    simp
  · obtain ⟨hi', _⟩ := hhilo
    rw [hi] at hi'
    cases hi'
  · obtain ⟨_, target, rfl | ⟨_, rfl⟩⟩ := hcontrol <;> simp
  · obtain ⟨_, ea, n, v, m, _, rfl⟩ := hstore
    simp

/-! ## What an instruction answers when HI, LO and `lmd` hold other words

The one argument of O25 and O29. `s.withHiLoLmd h l y` is `s` with those three fields replaced. No shared operation
reads them, so each commutes with the replacement but for the fields it writes itself. -/

/-- The state with HI, LO and `lmd` replaced. -/
def State.withHiLoLmd (h l y : Word) (s : State) : State := { s with hi := h, lo := l, lmd := y }

/-- The answer with its next state changed; a failure or a refusal stays. -/
def mapNext (f : State → State) : Answer → Answer
  | .next t => .next (f t)
  | .fault e => .fault e
  | .refused r => .refused r

/-- `t`, an instruction's next state, with those of HI, LO and `lmd` replaced that the instruction does not write. -/
def replaceUnwritten (i : Instr) (h l y : Word) (t : State) : State :=
  { t with
    hi := if writesHiLo i then t.hi else h
    lo := if writesHiLo i then t.lo else l
    lmd := if isLoad i then t.lmd else y }

section
variable (h l y : Word) (s : State)

theorem State.writeReg_withHiLoLmd (r : RegIdx) (v : Word) :
    (s.withHiLoLmd h l y).writeReg r v = (s.writeReg r v).withHiLoLmd h l y := by
  unfold State.writeReg
  split <;> rfl

theorem finish_withHiLoLmd (rd : RegIdx) (v : Word) :
    finish rd v (s.withHiLoLmd h l y) = mapNext (State.withHiLoLmd h l y) (finish rd v s) := by
  unfold finish
  rw [State.writeReg_withHiLoLmd]
  rfl

theorem finishChecked_withHiLoLmd (rd : RegIdx) (v : Except Fault Word) :
    finishChecked rd v (s.withHiLoLmd h l y) = mapNext (State.withHiLoLmd h l y) (finishChecked rd v s) := by
  cases v with
  | error e => rfl
  | ok w => exact finish_withHiLoLmd h l y s rd w

theorem link_redirect_withHiLoLmd (target : Word) :
    (s.withHiLoLmd h l y).link.redirect target = (s.link.redirect target).withHiLoLmd h l y := by
  unfold State.link
  exact congrArg (State.redirect · target) (s.writeReg_withHiLoLmd h l y linkReg (s.npc + 4#32))

theorem branchLink_withHiLoLmd (taken : Bool) (off : Imm16) :
    branchLink taken off (s.withHiLoLmd h l y) = mapNext (State.withHiLoLmd h l y) (branchLink taken off s) := by
  have hparams : (s.withHiLoLmd h l y).params = s.params := rfl
  unfold branchLink
  rw [hparams]
  by_cases hlink : (taken || s.params.linkOnNotTaken) = true
  · simp only [hlink, if_true]
    exact congrArg Host.Outcome.next (link_redirect_withHiLoLmd h l y s _)
  · simp only [hlink]
    rfl

/-- A load writes `lmd` itself, so that what `lmd` held does not show. -/
theorem load_withHiLoLmd (rt rs : RegIdx) (imm : Imm16) (al : Nat) (value : Word → Except Fault Word) :
    load rt rs imm al value (s.withHiLoLmd h l y) =
      mapNext (fun t => t.withHiLoLmd h l t.lmd) (load rt rs imm al value s) := by
  have hea : effectiveAddress rs imm (s.withHiLoLmd h l y) = effectiveAddress rs imm s := rfl
  unfold load
  rw [hea]
  cases effectiveAddress rs imm s with
  | error e => rfl
  | ok ea =>
    dsimp only
    cases checkAligned ea al with
    | error e => rfl
    | ok _ =>
      dsimp only
      cases value ea with
      | error e => rfl
      | ok w =>
        have hfinish := finish_withHiLoLmd h l w { s with lmd := w } rt w
        simpa [State.withHiLoLmd, finish, mapNext] using hfinish

theorem store_withHiLoLmd (rs : RegIdx) (imm : Imm16) (n : Nat) (v : Word) :
    store rs imm n v (s.withHiLoLmd h l y) = mapNext (State.withHiLoLmd h l y) (store rs imm n v s) := by
  have hea : effectiveAddress rs imm (s.withHiLoLmd h l y) = effectiveAddress rs imm s := rfl
  have hmem : (s.withHiLoLmd h l y).mem = s.mem := rfl
  unfold store
  rw [hea, hmem]
  cases effectiveAddress rs imm s with
  | error e => rfl
  | ok ea =>
    dsimp only
    cases checkAligned ea n with
    | error e => rfl
    | ok _ =>
      dsimp only
      cases s.mem.memWrite ea n v <;> rfl

theorem jr_withHiLoLmd (rs rt : RegIdx) :
    execJr rs rt (s.withHiLoLmd h l y) = mapNext (State.withHiLoLmd h l y) (execJr rs rt s) := by
  have hsum : sadd (s.withHiLoLmd h l y).params.eaOverflowCheck ((s.withHiLoLmd h l y).readReg rs)
      ((s.withHiLoLmd h l y).readReg rt) = sadd s.params.eaOverflowCheck (s.readReg rs) (s.readReg rt) := rfl
  unfold execJr
  rw [hsum]
  cases sadd s.params.eaOverflowCheck (s.readReg rs) (s.readReg rt) <;> rfl

/-- With HI, LO and `lmd` replaced, an instruction answers the same but for those of the three it does not write,
provided that HI and LO hold what they held if it reads them. -/
theorem exec_withHiLoLmd (i : Instr) (hr : readsHiLo i = true → h = s.hi ∧ l = s.lo) :
    exec i (s.withHiLoLmd h l y) = mapNext (replaceUnwritten i h l y) (exec i s) := by
  cases i
  case mfhi | mflo =>
    obtain ⟨rfl, rfl⟩ := hr rfl
    exact finish_withHiLoLmd _ _ _ s _ _
  case div | divu =>
    obtain ⟨rfl, rfl⟩ := hr rfl
    rfl
  case add | sub | addi => exact finishChecked_withHiLoLmd _ _ _ s _ _
  case lb | lbu | lw | lwl | lwr => exact load_withHiLoLmd _ _ _ s _ _ _ _ _
  case sb | sh | sw => exact store_withHiLoLmd _ _ _ s _ _ _ _
  case mult | multu | beq | bne | blez | bgtz | bltz | bgez | j => rfl
  case bltzal | bgezal => exact branchLink_withHiLoLmd _ _ _ s _ _
  case jal => exact congrArg Host.Outcome.next (link_redirect_withHiLoLmd _ _ _ s _)
  case jr rs rt _ => exact jr_withHiLoLmd _ _ _ s rs rt
  all_goals exact finish_withHiLoLmd _ _ _ s _ _

end

/-- R26: an instruction other than the loads leaves `lmd`. Its answer is unchanged when HI, LO and `lmd` are replaced by
the words they hold, and that answer has in `lmd` the word put there. -/
theorem exec_lmd_of_not_load {i : Instr} {s t : State} (hi : isLoad i = false) (h : exec i s = .next t) :
    t.lmd = s.lmd := by
  have hself : exec i s = mapNext (replaceUnwritten i s.hi s.lo s.lmd) (exec i s) :=
    exec_withHiLoLmd s.hi s.lo s.lmd s i fun _ => ⟨rfl, rfl⟩
  rw [h] at hself
  have ht : t = replaceUnwritten i s.hi s.lo s.lmd t := Host.Outcome.next.inj hself
  calc t.lmd = (replaceUnwritten i s.hi s.lo s.lmd t).lmd := congrArg State.lmd ht
    _ = s.lmd := by simp [replaceUnwritten, hi]

/-- R24: what HI and LO hold shows in HI and LO alone, unless the instruction reads them. -/
theorem exec_withHiLo {i : Instr} (hr : readsHiLo i = false) (h l : Word) (s : State) :
    exec i { s with hi := h, lo := l } =
      mapNext (fun t => if writesHiLo i then t else { t with hi := h, lo := l }) (exec i s) := by
  have hall : exec i { s with hi := h, lo := l } = mapNext (replaceUnwritten i h l s.lmd) (exec i s) :=
    exec_withHiLoLmd h l s.lmd s i fun hr' => absurd hr' (by simp [hr])
  rw [hall]
  cases hexec : exec i s with
  | fault e => rfl
  | refused r => rfl
  | next t =>
    have hlmd : (if isLoad i then t.lmd else s.lmd) = t.lmd := by
      cases hload : isLoad i with
      | true => rfl
      | false => exact (exec_lmd_of_not_load hload hexec).symm
    simp only [mapNext, replaceUnwritten, hlmd]
    cases writesHiLo i <;> rfl

/-- R26: what `lmd` holds shows in `lmd` alone, and not even there after a load. -/
theorem exec_withLmd (i : Instr) (y : Word) (s : State) :
    exec i { s with lmd := y } = mapNext (fun t => { t with lmd := if isLoad i then t.lmd else y }) (exec i s) := by
  have hall : exec i { s with lmd := y } = mapNext (replaceUnwritten i s.hi s.lo y) (exec i s) :=
    exec_withHiLoLmd s.hi s.lo y s i fun _ => ⟨rfl, rfl⟩
  rw [hall]
  cases hexec : exec i s with
  | fault e => rfl
  | refused r => rfl
  | next t =>
    simp only [mapNext, replaceUnwritten]
    cases hw : writesHiLo i with
    | true => rfl
    | false =>
      obtain ⟨hhi, hlo⟩ := exec_hiLo_of_not_writesHiLo hw hexec
      simp [hhi, hlo]

/-! ## The step, one equation per outcome -/

section
variable {s : State}

theorem step_of_blockSize_ne (hb : s.mem.blockSize ≠ 4) : step s = .refused .blockSizeNotFour := if_pos hb

theorem step_of_fetch_error {e : Fault} (he : fetch s = .error e) (hb : s.mem.blockSize = 4) : step s = .fault e := by
  simp [step, Config.cpuBlockSize, hb, he, raise]

theorem step_of_decode_error {w : Word} (hw : fetch s = .ok w) {e : DecodeError} (he : decode w = .error e)
    (hb : s.mem.blockSize = 4) : step s = .fault .invalidInstruction := by
  simp [step, Config.cpuBlockSize, hb, hw, he, raise]

theorem step_of_decode_ok {w : Word} (hw : fetch s = .ok w) {i : Instr} (hi : decode w = .ok i)
    (hb : s.mem.blockSize = 4) : step s = exec i { s with ir := w } := by
  simp [step, Config.cpuBlockSize, hb, hw, hi]

end

/-- What `ir` and `lmd` hold shows in `lmd` alone, and only when the step does not write it: fetch reads neither, and
`ir` is overwritten before the instruction runs. -/
theorem step_withIrLmd (s : State) (x y : Word) : ∃ written : Bool,
    step { s with ir := x, lmd := y } = mapNext (fun t => { t with lmd := if written then t.lmd else y }) (step s) := by
  have hfetch : fetch { s with ir := x, lmd := y } = fetch s := rfl
  rcases step_cases s with ⟨hb, h⟩ | ⟨hb, ⟨e, he, h⟩ | ⟨w, hw, ⟨e, he, h⟩ | ⟨i, hi, h⟩⟩⟩ <;> rw [h]
  · exact ⟨false, step_of_blockSize_ne hb⟩
  · exact ⟨false, step_of_fetch_error (hfetch.trans he) hb⟩
  · exact ⟨false, step_of_decode_error (hfetch.trans hw) he hb⟩
  · exact ⟨isLoad i, (step_of_decode_ok (hfetch.trans hw) hi hb).trans (exec_withLmd i y { s with ir := w })⟩

/-! ## Registers, by number -/

/-- R18: a register other than r0 is read back after a write, and no other register changes. -/
theorem State.readReg_writeReg_of_ne_zero (s : State) {r : RegIdx} (hr : r ≠ 0#5) (q : RegIdx) (v : Word) :
    (s.writeReg r v).readReg q = if q = r then v else s.readReg q := by
  rw [State.readReg_writeReg]
  by_cases hq : q = 0#5
  · subst hq
    simp [hr.symm]
  · simp [hq]

/-- Register numbers below 32 name different registers. -/
theorem regIdx_ofNat_inj {n k : Nat} (hn : n < 32) (hk : k < 32) : BitVec.ofNat 5 n = BitVec.ofNat 5 k ↔ n = k := by
  constructor
  · intro h
    simpa [Nat.mod_eq_of_lt hn, Nat.mod_eq_of_lt hk] using congrArg BitVec.toNat h
  · rintro rfl
    rfl

section
variable (s : State) {k : Nat} (v : Word)

theorem getRegister_of_lt (hk : k < 32) :
    getRegister k (.ready s) = .ok (.ready s, .ok (s.readReg (BitVec.ofNat 5 k))) := if_pos hk

theorem getRegister_of_ge (hk : 32 ≤ k) : getRegister k (.ready s) = .ok (.ready s, .error .invalidArgument) :=
  if_neg (Nat.not_lt.mpr hk)

theorem setRegister_of_lt (hk : k < 32) :
    setRegister k v (.ready s) = .ok (.ready (s.writeReg (BitVec.ofNat 5 k) v), .ok ()) := if_pos hk

theorem setRegister_of_ge (hk : 32 ≤ k) : setRegister k v (.ready s) = .ok (.ready s, .error .invalidArgument) :=
  if_neg (Nat.not_lt.mpr hk)

end

/-! ## Reset, `set_pc` and creation -/

/-- A register file of zeros reads 0 everywhere. -/
theorem State.readReg_of_zeros {s : State} (hs : s.regs = Vector.replicate 32 0#32) (r : RegIdx) :
    s.readReg r = 0#32 := by
  unfold State.readReg
  split
  · rfl
  · simp [hs]

/-- R38: every byte of a new store is 0. -/
@[simp] theorem Memory.byteAt_created (size blockSize a : Nat) : (Memory.created size blockSize).byteAt a = 0#8 := rfl

theorem createMemory_of_allocated {size blockSize : Nat} (hpos : 0 < blockSize) :
    createMemory true size blockSize = .ok (Memory.created size blockSize) := if_neg hpos.ne'

theorem createMemory_of_not_allocated {size blockSize : Nat} (hpos : 0 < blockSize) :
    createMemory false size blockSize = .error .allocationFailed := if_neg hpos.ne'

/-! ## The statements -/

/-- Settles O31: a step replaces `ir`, which the invariant does not name, and then executes one instruction. -/
theorem stepKeepsTheInvariant : Obligations.StepKeepsTheInvariant := by
  intro s t hs h
  obtain ⟨_, w, i, _, _, hexec⟩ := step_inv h
  have fetched : State.Inv { s with ir := w } := hs.congr rfl rfl
  exact exec_keeps_inv fetched hexec

/-- Settles O22, from the shapes of a next state. -/
theorem everyInstructionMovesPcToNpc : Obligations.EveryInstructionMovesPcToNpc :=
  fun _ _ _ h => ⟨exec_pc h, fun hi => exec_npc_of_not_control hi h⟩

/-- Settles O25: what an instruction writes by the shapes of its next state, what it reads by replacing HI and LO. -/
theorem hiLoAreWrittenAndReadByFewInstructions : Obligations.HiLoAreWrittenAndReadByFewInstructions := by
  intro i s
  refine ⟨fun t hw h => exec_hiLo_of_not_writesHiLo hw h, fun hr h l => ⟨fun t ht => ?_, fun e he => ?_⟩⟩
  · rw [exec_withHiLo hr, ht]
    rfl
  · rw [exec_withHiLo hr, he]
    rfl

/-- Settles O29: the word `z` in `lmd` is the step's own if the step is a load, and `y` otherwise. -/
theorem irAndLmdAreUnobservable : Obligations.IrAndLmdAreUnobservable := by
  intro s x y
  obtain ⟨written, hstep⟩ := step_withIrLmd s x y
  refine ⟨fun t ht => ⟨if written then t.lmd else y, ?_, ?_⟩, fun e he => ?_, fun r hr => ?_⟩
  · rw [hstep, ht]
    rfl
  · cases written with
    | false => exact .inl rfl
    | true => exact .inr rfl
  · rw [hstep, he]
    rfl
  · rw [hstep, hr]
    rfl

/-- Settles O33, one host operation at a time. -/
theorem hostOperationsKeepTheInvariant : Obligations.HostOperationsKeepTheInvariant := by
  intro s hs
  refine ⟨fun d t h => ?_, fun k v t h => ?_, fun v t h => ?_, fun a n bytes t h => ?_⟩
  · cases h
    exact hs.resetState d
  · rcases setRegister_cases h with hsame | ⟨u, hu, ht⟩
    · cases hsame
      exact hs
    · cases hu
      cases ht
      exact hs.writeReg _ v
  · cases h
    exact hs.congr rfl rfl
  · obtain ⟨hin, rfl⟩ := memWriteCall_ready_inv h
    exact hs.setBytes hin

/-- Settles O57: below 32 the calls are `readReg` and `writeReg`, and different indices are different registers. -/
theorem hostRegisterAccessChecksTheIndex : Obligations.HostRegisterAccessChecksTheIndex := by
  intro s k v
  refine ⟨getRegister_of_lt s, fun hk => ⟨getRegister_of_ge s hk, setRegister_of_ge s v hk⟩,
    setRegister_of_lt s v (by decide), fun hpos hk => ?_⟩
  have hne : BitVec.ofNat 5 k ≠ 0#5 := fun h => hpos.ne' ((regIdx_ofNat_inj hk (by decide)).mp h)
  refine ⟨_, setRegister_of_lt s v hk, fun n hn => ?_, s.writeReg_pc _ _, s.writeReg_npc _ _,
    ⟨s.writeReg_hi _ _, s.writeReg_lo _ _⟩, SameMemory.rfl_of (s.writeReg_mem _ _),
    ⟨s.writeReg_ir _ _, s.writeReg_params _ _⟩, s.writeReg_lmd _ _⟩
  rw [getRegister_of_lt _ hn, State.readReg_writeReg_of_ne_zero s hne]
  simp only [regIdx_ofNat_inj hn hk]

/-- Settles O1, from the law of a read after a write. -/
theorem zeroRegisterReadsZeroAndDropsWrites : Obligations.ZeroRegisterReadsZeroAndDropsWrites :=
  fun s _ q v => ⟨s.readReg_zero, s.writeReg_zero v, fun hr => s.readReg_writeReg_of_ne_zero hr q v⟩

/-- Settles O3: the register file is all zeros and the new store lists no byte. -/
theorem resetStateReadsZero : Obligations.ResetStateReadsZero :=
  ⟨State.readReg_of_zeros rfl, rfl, rfl, rfl, rfl, rfl, Memory.byteAt_created _ _⟩

/-- Settles O32: a new store lists nothing, so it is canonical and within bounds. -/
theorem resetMeetsTheInvariant : Obligations.ResetMeetsTheInvariant where
  zeroCell := by simp [State.reset]
  canonical := ⟨List.Pairwise.nil, fun _ hc => absurd hc List.not_mem_nil⟩
  exists_ := fun _ hc => absurd hc List.not_mem_nil
  block := rfl

/-- Settles O58: the value is checked by the next fetch, first for alignment, then for bounds. -/
theorem setPcResynchronisesNpc : Obligations.SetPcResynchronisesNpc := by
  intro s v
  refine ⟨rfl, s.setPc v, rfl, rfl, rfl, fun _ => rfl, ⟨rfl, rfl⟩, SameMemory.rfl_of rfl, ⟨rfl, rfl⟩, rfl, ?_, ?_⟩
  · intro hb hal
    exact step_of_fetch_error (fetch_misaligned (s := s.setPc v) hb hal) hb
  · intro hb hal hout
    exact step_of_fetch_error (fetch_outside (s := s.setPc v) hb hal hout) hb

/-- Settles O60: a CPU that was not reset holds no registers, so the three calls have no state to answer from. -/
theorem createdCpuIsRefusedUntilReset : Obligations.CreatedCpuIsRefusedUntilReset := by
  intro p size blockSize k hpos
  refine ⟨createMemory_of_not_allocated hpos, Memory.created size blockSize, createMemory_of_allocated hpos, rfl, rfl,
    Memory.byteAt_created _ _, fun hne => if_neg hne, fun heq => ?_⟩
  have hcreate : createCpu p (Memory.created size blockSize) = .ok (.unreset p (Memory.created size blockSize)) :=
    if_pos heq
  exact ⟨_, hcreate, rfl, rfl, rfl, rfl, rfl, fun d => ⟨_, rfl, rfl, rfl⟩⟩

end Sys2Proof.Machine
end

section
/-!
SUPPORT. The proofs of the statements on the store (20_memory.md). First the laws they need and the library of Laws/ does
not have: which cells a canonical store lists, what a span reads after a write, the bytes of an aligned word, what no
instruction answers or changes, and one equation per outcome of the host's memory calls. Then the statements.
-/

namespace Sys2Proof.Machine

/-! ## The cells of a canonical store -/

/-- With addresses strictly rising, a listed pair is the one that a read of its address finds. -/
theorem lookupCell_of_mem {cs : List Host.Cell} (hs : cs.Pairwise fun c d => c.1 < d.1) {c : Host.Cell} (hc : c ∈ cs) :
    lookupCell cs c.1 = c.2 := by
  induction cs with
  | nil => cases hc
  | cons d rest ih =>
    obtain ⟨hlow, hrest⟩ := List.pairwise_cons.mp hs
    rcases List.mem_cons.mp hc with rfl | hc
    · exact if_pos rfl
    · exact (if_neg (hlow c hc).ne).trans (ih hrest hc)

/-- A byte that does not read as the background is listed. -/
theorem mem_of_lookupCell_ne {cs : List Host.Cell} {a : Nat} (h : lookupCell cs a ≠ Memory.background) :
    (a, lookupCell cs a) ∈ cs := by
  induction cs with
  | nil => exact absurd rfl h
  | cons c rest ih =>
    obtain ⟨k, v⟩ := c
    by_cases hk : k = a
    · simp [lookupCell, hk]
    · simp only [lookupCell, if_neg hk] at h ⊢
      exact List.mem_cons_of_mem _ (ih h)

/-- A canonical store lists exactly the bytes that do not read as the background. -/
theorem Memory.mem_cells_iff {m : Memory} (hm : m.wf) (c : Host.Cell) :
    c ∈ m.cells ↔ m.byteAt c.1 = c.2 ∧ c.2 ≠ Memory.background := by
  obtain ⟨hsorted, hlisted⟩ := hm
  constructor
  · intro hc
    exact ⟨lookupCell_of_mem hsorted hc, hlisted c hc⟩
  · rintro ⟨hread, hne⟩
    have hmem : (c.1, m.byteAt c.1) ∈ m.cells := mem_of_lookupCell_ne (hread.trans_ne hne)
    rwa [hread] at hmem

/-- Lists of cells with addresses strictly rising and the same members are equal. -/
theorem cells_eq_of_mem_iff {cs ds : List Host.Cell} (hcs : cs.Pairwise fun c d => c.1 < d.1)
    (hds : ds.Pairwise fun c d => c.1 < d.1) (h : ∀ c, c ∈ cs ↔ c ∈ ds) : cs = ds := by
  have : Std.Irrefl fun c d : Host.Cell => c.1 < d.1 := ⟨fun c => lt_irrefl c.1⟩
  have : Std.Antisymm fun c d : Host.Cell => c.1 < d.1 := ⟨fun _ _ hlt hgt => absurd hlt hgt.asymm⟩
  exact hcs.eq_of_mem_iff hds h

/-! ## Spans of bytes -/

/-- A span reads what its bytes read. -/
theorem Memory.bytesAt_congr {m m' : Memory} {a len : Nat}
    (h : ∀ x, a ≤ x → x < a + len → m'.byteAt x = m.byteAt x) : m'.bytesAt a len = m.bytesAt a len := by
  apply List.ext_getElem (by simp)
  intro i hi _
  rw [Memory.bytesAt_length] at hi
  rw [Memory.getElem_bytesAt, Memory.getElem_bytesAt]
  exact h (a + i) (by omega) (by omega)

/-- R46: the span of a write reads the bytes written. -/
theorem Memory.bytesAt_setBytes (m : Memory) (a : Nat) (bytes : List Byte) :
    (m.setBytes a bytes).bytesAt a bytes.length = bytes := by
  apply List.ext_getElem (by simp)
  intro i _ hi
  have hin : a ≤ a + i ∧ a + i - a < bytes.length := by omega
  rw [Memory.getElem_bytesAt, Memory.byteAt_setBytes, dif_pos hin]
  simp only [Nat.add_sub_cancel_left]

/-- R46: a span disjoint from that of a write reads what it read before. -/
theorem Memory.bytesAt_setBytes_of_disjoint (m : Memory) {a b len : Nat} {bytes : List Byte}
    (h : b + len ≤ a ∨ a + bytes.length ≤ b) : (m.setBytes a bytes).bytesAt b len = m.bytesAt b len := by
  refine Memory.bytesAt_congr fun x hlow hhigh => ?_
  rw [Memory.byteAt_setBytes, dif_neg (by omega)]

/-- What a byte reads after the first `len` of `bytes` were written from `a` on. -/
theorem Memory.byteAt_setBytes_take (m : Memory) (a x : Nat) {len : Nat} {bytes : List Byte}
    (hlen : len ≤ bytes.length) :
    (m.setBytes a (bytes.take len)).byteAt x =
      if h : a ≤ x ∧ x - a < len then bytes[x - a]'(Nat.lt_of_lt_of_le h.2 hlen) else m.byteAt x := by
  simp only [Memory.byteAt_setBytes, List.length_take_of_le hlen, List.getElem_take]

/-- R38: every span of a new store reads zeros. -/
theorem Memory.bytesAt_created (size blockSize a len : Nat) :
    (Memory.created size blockSize).bytesAt a len = List.replicate len 0#8 := by
  apply List.ext_getElem (by simp)
  intro i _ _
  rw [Memory.getElem_bytesAt, List.getElem_replicate]
  rfl

/-- The checks of a block access look at the size and the block size alone, which no write changes. -/
@[simp] theorem Memory.checkSpan_setBytes (m : Memory) (a addr len : Nat) (bytes : List Byte) :
    (m.setBytes a bytes).checkSpan addr len = m.checkSpan addr len := by
  simp only [Memory.checkSpan, Memory.setBytes_size, Memory.setBytes_blockSize]

theorem Memory.blockWrite_of_error {m : Memory} {addr : Nat} {bytes : List Byte} {e : Fault}
    (h : m.checkSpan addr bytes.length = .error e) : m.blockWrite addr bytes = .error e := by simp [Memory.blockWrite, h]

/-- `BlockRead` of a store whose bytes in the span are those of another store of the same shape answers the same. -/
theorem Memory.blockRead_congr {m m' : Memory} {addr len : Nat}
    (hcheck : m'.checkSpan addr len = m.checkSpan addr len) (hbytes : m'.bytesAt addr len = m.bytesAt addr len) :
    m'.blockRead addr len = m.blockRead addr len := by
  simp only [Memory.blockRead, hcheck, hbytes]

/-! ## The bytes of an aligned word -/

/-- R49: an access that starts at place `k` of an aligned word and stays within the word reads the bytes from there. -/
theorem Memory.memRead_within_word {m : Memory} (hb : m.blockSize = 4) {a : Word} (hal : a.toNat % 4 = 0)
    (hin : a.toNat + 4 ≤ m.size) {k n : Nat} (hk : k < 4) (hkn : k + n ≤ 4) :
    m.memRead (a + BitVec.ofNat 32 k) n = .ok (beWord (m.bytesAt (a.toNat + k) n)) := by
  have haddr : (a + BitVec.ofNat 32 k).toNat = a.toNat + k := by
    have hlt := a.isLt
    rw [BitVec.toNat_add, BitVec.toNat_ofNat]
    omega
  have hplace : byteOffset (a + BitVec.ofNat 32 k) = k := by unfold byteOffset; omega
  have hbase : alignedBase (a + BitVec.ofNat 32 k) = a.toNat := by unfold alignedBase; omega
  rw [Memory.memRead_inside hb (by rwa [hbase]) (by rwa [hplace]), haddr]

/-- The bytes a store leaves at its address are the low bytes of the word stored. -/
theorem StoreResult.bytesAt {s t : State} {ea n : Nat} {v : Word} (h : StoreResult s t ea n v) (hn : n ≤ 4) :
    t.mem.bytesAt ea n = beBytes n v := by
  obtain ⟨hbyte, _⟩ := h
  apply List.ext_getElem (by simp)
  intro i hi _
  rw [Memory.bytesAt_length] at hi
  rw [Memory.getElem_bytesAt, getElem_beBytes hn, hbyte, if_pos (by omega), Nat.add_sub_cancel_left]

/-- A stored word is the word that the store then holds at the address. -/
theorem StoreResult.wordAt {s t : State} {ea : Nat} {v : Word} (h : StoreResult s t ea 4 v) :
    t.mem.wordAt ea = v := by
  rw [← beWord_bytesAt_four, h.bytesAt le_rfl, beWord_beBytes]

/-! ## What no instruction answers or changes -/

theorem finishChecked_ne_refused (rd : RegIdx) (v : Except Fault Word) (s : State) (r : Refusal) :
    finishChecked rd v s ≠ .refused r := by
  cases v <;> nofun

theorem load_ne_refused (rt rs : RegIdx) (imm : Imm16) (al : Nat) (value : Word → Except Fault Word) (s : State)
    (r : Refusal) : load rt rs imm al value s ≠ .refused r := by
  rcases load_cases rt rs imm al value s with ⟨e, _, h⟩ | ⟨ea, _, ⟨_, h⟩ | ⟨_, ⟨e, _, h⟩ | ⟨w, _, h⟩⟩⟩ <;>
    rw [h] <;> nofun

theorem store_ne_refused (rs : RegIdx) (imm : Imm16) (n : Nat) (v : Word) (s : State) (r : Refusal) :
    store rs imm n v s ≠ .refused r := by
  rcases store_cases rs imm n v s with ⟨e, _, h⟩ | ⟨ea, _, ⟨_, h⟩ | ⟨_, ⟨e, _, h⟩ | ⟨m, _, h⟩⟩⟩ <;> rw [h] <;> nofun

theorem execJr_ne_refused (rs rt : RegIdx) (s : State) (r : Refusal) : execJr rs rt s ≠ .refused r := by
  unfold execJr
  cases sadd s.params.eaOverflowCheck (s.readReg rs) (s.readReg rt) <;> nofun

/-- R103: every instruction has a meaning in every state. -/
theorem exec_ne_refused (i : Instr) (s : State) (r : Refusal) : exec i s ≠ .refused r := by
  cases i
  case add | sub | addi => exact finishChecked_ne_refused _ _ s r
  case lb | lbu | lw | lwl | lwr => exact load_ne_refused _ _ _ _ _ s r
  case sb | sh | sw => exact store_ne_refused _ _ _ _ s r
  case jr => exact execJr_ne_refused _ _ s r
  all_goals nofun

/-- What an instruction can do to memory and the parameters: only a store changes memory, it writes consecutive bytes,
and nothing writes the parameters (R9, R54). -/
theorem exec_mem_params {i : Instr} {s t : State} (h : exec i s = .next t) :
    t.params = s.params ∧ (t.mem = s.mem ∨ isStore i = true ∧ ∃ a bytes, t.mem = s.mem.setBytes a bytes) := by
  rcases exec_shape h with ⟨_, _, _, hwrite⟩ | ⟨_, _, hhilo⟩ | ⟨_, _, hcontrol⟩ | ⟨_, _, hstore⟩
  · obtain ⟨rd, v, l, _, rfl⟩ := hwrite
    exact ⟨State.writeReg_params _ rd v, .inl (State.writeReg_mem _ rd v)⟩
  · obtain ⟨_, h, l, rfl⟩ := hhilo
    exact ⟨rfl, .inl rfl⟩
  · obtain ⟨_, target, rfl | ⟨_, rfl⟩⟩ := hcontrol
    · exact ⟨rfl, .inl rfl⟩
    · exact ⟨s.link_params, .inl s.link_mem⟩
  · obtain ⟨hi, ea, n, v, m, hm, rfl⟩ := hstore
    obtain ⟨a, bytes, rfl, _⟩ := Memory.memWrite_inv hm
    exact ⟨rfl, .inr ⟨hi, a, bytes, rfl⟩⟩

/-- R54: an instruction that is no store leaves memory as it is. -/
theorem exec_mem_of_not_store {i : Instr} {s t : State} (hi : isStore i = false) (h : exec i s = .next t) :
    t.mem = s.mem := by
  obtain ⟨_, hsame | ⟨hi', _⟩⟩ := exec_mem_params h
  · exact hsame
  · rw [hi] at hi'
    cases hi'

/-! ## The data of a CPU that is fixed for its lifetime -/

/-- Two CPUs have stores of one size and block size, and the same parameters (R9, R39). -/
def SameShape (c d : Cpu) : Prop :=
  d.memory.size = c.memory.size ∧ d.memory.blockSize = c.memory.blockSize ∧ d.params = c.params

theorem SameShape.of_eq {c d : Cpu} (hmem : d.memory = c.memory) (hparams : d.params = c.params) : SameShape c d := by
  unfold SameShape
  rw [hmem]
  exact ⟨rfl, rfl, hparams⟩

theorem sameShape_withMemory_setBytes (c : Cpu) (a : Nat) (bytes : List Byte) :
    SameShape c (c.withMemory (c.memory.setBytes a bytes)) := by
  simp [SameShape]

theorem exec_sameShape {i : Instr} {s t : State} (h : exec i s = .next t) : SameShape (.ready s) (.ready t) := by
  obtain ⟨hparams, hsame | ⟨_, a, bytes, hwritten⟩⟩ := exec_mem_params h
  · exact .of_eq hsame hparams
  · simp [SameShape, hwritten, hparams]

/-- A step fetches and decodes, which changes `ir` only, and then executes one instruction. -/
theorem step_sameShape {s t : State} (h : step s = .next t) : SameShape (.ready s) (.ready t) := by
  obtain ⟨_, w, i, _, _, hexec⟩ := step_inv h
  have hshape : SameShape (.ready { s with ir := w }) (.ready t) := exec_sameShape hexec
  exact hshape

theorem stepCall_sameShape {c d : Cpu} {r : Except Fault Unit} (h : stepCall c = .ok (d, r)) : SameShape c d := by
  obtain ⟨s, rfl, ⟨t, hstep, rfl, _⟩ | ⟨e, _, rfl, _⟩⟩ := stepCall_cases h
  · exact step_sameShape hstep
  · exact .of_eq (afterFailedStep_mem s) (afterFailedStep_params s)

/-- No operation of the host changes what is fixed for a CPU's lifetime, one operation at a time. -/
theorem HostCall.sameShape {c d : Cpu} (h : HostCall c d) : SameShape c d := by
  rcases h with ⟨lmdDraw, rfl⟩ | ⟨r, h⟩ | ⟨k, r, h⟩ | ⟨k, v, r, h⟩ | ⟨r, h⟩ | ⟨v, r, h⟩ | ⟨a, n, r, h⟩ |
    ⟨a, n, bytes, r, h⟩ | ⟨level, rfl⟩
  · exact .of_eq (resetCall_memory _ _) (resetCall_params _ _)
  · exact stepCall_sameShape h
  · rw [getRegister_cpu h]
    exact .of_eq rfl rfl
  · rcases setRegister_cases h with rfl | ⟨s, rfl, rfl⟩
    · exact .of_eq rfl rfl
    · exact .of_eq (s.writeReg_mem _ _) (s.writeReg_params _ _)
  · rw [getPc_cpu h]
    exact .of_eq rfl rfl
  · rcases setPc_cases h with rfl | ⟨s, rfl, rfl⟩ <;> exact .of_eq rfl rfl
  · rw [memReadCall_cpu h]
    exact .of_eq rfl rfl
  · rcases memWriteCall_cases h with rfl | rfl
    · exact .of_eq rfl rfl
    · exact sameShape_withMemory_setBytes c _ _
  · exact .of_eq rfl rfl

/-! ## The host's memory calls, one equation per outcome -/

section
variable {c : Cpu} {addr : Word} {len : Nat} {bytes : List Byte}

theorem memReadCall_of_ok (h : c.memory.checkSpan addr.toNat len = .ok ()) :
    memReadCall addr len c = .ok (c, .ok (c.memory.bytesAt addr.toNat len)) := by
  simp only [memReadCall, Memory.blockRead_of_ok h]

theorem memReadCall_of_error {e : Fault} (h : c.memory.checkSpan addr.toNat len = .error e) :
    memReadCall addr len c = .ok (c, .error e) := by
  simp only [memReadCall, Memory.blockRead_of_error h]

theorem memWriteCall_of_short (h : bytes.length < len) :
    memWriteCall addr len bytes c = .error .dataShorterThanLength := if_pos h

theorem memWriteCall_of_ok (hlen : len ≤ bytes.length) (h : c.memory.checkSpan addr.toNat len = .ok ()) :
    memWriteCall addr len bytes c = .ok (c.withMemory (c.memory.setBytes addr.toNat (bytes.take len)), .ok ()) := by
  rw [← List.length_take_of_le hlen] at h
  simp only [memWriteCall, if_neg hlen.not_gt, Memory.blockWrite_of_ok h]

theorem memWriteCall_of_error (hlen : len ≤ bytes.length) {e : Fault}
    (h : c.memory.checkSpan addr.toNat len = .error e) : memWriteCall addr len bytes c = .ok (c, .error e) := by
  rw [← List.length_take_of_le hlen] at h
  simp only [memWriteCall, if_neg hlen.not_gt, Memory.blockWrite_of_error h]

/-- R46: after the write of a span that passes the checks, `mem_read` of the span answers what was written. -/
theorem memReadCall_withMemory_setBytes (hlen : len ≤ bytes.length)
    (h : c.memory.checkSpan addr.toNat len = .ok ()) :
    memReadCall addr len (c.withMemory (c.memory.setBytes addr.toNat (bytes.take len))) =
      .ok (c.withMemory (c.memory.setBytes addr.toNat (bytes.take len)), .ok (bytes.take len)) := by
  have hread := c.memory.bytesAt_setBytes addr.toNat (bytes.take len)
  rw [List.length_take_of_le hlen] at hread
  rw [memReadCall_of_ok (by simpa using h), Cpu.withMemory_memory, hread]

end

/-! ## The statements -/

/-- Settles O5: both operations begin with the one check of the span. -/
theorem blockAccessChecksAlignmentThenBounds : Obligations.BlockAccessChecksAlignmentThenBounds := by
  intro m addr bytes
  refine ⟨fun hal => ?_, fun hstart hend hout => ?_, fun hstart hend hin => ?_⟩
  · have hcheck := Memory.checkSpan_misaligned hal
    exact ⟨Memory.blockRead_of_error hcheck, Memory.blockWrite_of_error hcheck⟩
  · have hcheck := Memory.checkSpan_outside hstart hend hout
    exact ⟨Memory.blockRead_of_error hcheck, Memory.blockWrite_of_error hcheck⟩
  · have hcheck := Memory.checkSpan_ok hstart hend hin
    exact ⟨_, _, Memory.blockRead_of_ok hcheck, Memory.bytesAt_length _ _ _, Memory.getElem_bytesAt _ _ _,
      Memory.blockWrite_of_ok hcheck, Memory.setBytes_size _ _ _, Memory.setBytes_blockSize _ _ _,
      fun x => Memory.byteAt_setBytes _ _ x _⟩

/-- Settles O6: a write changes the bytes of its span alone, and no check of any span. -/
theorem readReturnsTheLastWrittenBytes : Obligations.ReadReturnsTheLastWrittenBytes := by
  refine ⟨fun m m' addr bytes hwrite => ?_, fun size blockSize addr len out hread b hb => ?_⟩
  · obtain ⟨hcheck, rfl⟩ := Memory.blockWrite_inv hwrite
    refine ⟨?_, fun other len hdisjoint => Memory.blockRead_congr (Memory.checkSpan_setBytes _ _ _ _ _)
      (m.bytesAt_setBytes_of_disjoint hdisjoint)⟩
    rw [Memory.blockRead_of_ok (by rwa [Memory.checkSpan_setBytes]), Memory.bytesAt_setBytes]
  · obtain ⟨_, rfl⟩ := Memory.blockRead_inv hread
    rw [Memory.bytesAt_created] at hb
    exact List.eq_of_mem_replicate hb

/-- Settles O7: what a canonical store lists is determined by what it reads, and in which order by the addresses. -/
theorem canonicalStoresWithEqualBytesAreEqual : Obligations.CanonicalStoresWithEqualBytesAreEqual := by
  intro m m' hm hm' hsize hblock hread
  have hcells : m.cells = m'.cells := by
    refine cells_eq_of_mem_iff hm.1 hm'.1 fun c => ?_
    rw [Memory.mem_cells_iff hm, Memory.mem_cells_iff hm', hread]
  cases m
  cases m'
  cases hsize
  cases hblock
  cases hcells
  rfl

/-- Settles O8: each of the reads is of the bytes from a place of the aligned word on. -/
theorem wordHalfAndByteViewsAreBigEndian : Obligations.WordHalfAndByteViewsAreBigEndian := by
  intro m a k hb hal hin hk
  refine ⟨?_, ?_, byteOf_wordAt m a.toNat hk, fun heven => ?_⟩
  · have hword := Memory.memRead_within_word hb hal hin (k := 0) (n := 4) (by omega) le_rfl
    simpa [beWord_bytesAt_four] using hword
  · rw [Memory.memRead_within_word hb hal hin hk (by omega)]
    exact congrArg Except.ok (beWord_one _)
  · rw [Memory.memRead_within_word hb hal hin hk (by omega)]
    exact congrArg Except.ok (beWord_two _ _)

/-- Settles O18: of the outcomes of a step only that of another block size is a refusal. -/
theorem stepRefusesOnlyOtherBlockSizes : Obligations.StepRefusesOnlyOtherBlockSizes := by
  refine ⟨exec_ne_refused, fun s r => ⟨fun h => ?_, ?_⟩⟩
  · rcases step_cases s with ⟨hb, h'⟩ | ⟨_, ⟨e, _, h'⟩ | ⟨w, _, ⟨e, _, h'⟩ | ⟨i, _, h'⟩⟩⟩ <;> rw [h'] at h
    · cases h
      exact ⟨hb, rfl⟩
    · cases h
    · cases h
    · exact absurd h (exec_ne_refused _ _ _)
  · rintro ⟨hb, rfl⟩
    exact step_of_blockSize_ne hb

/-- Settles O26, from what an instruction can do to memory. -/
theorem onlyStoresWriteMemory : Obligations.OnlyStoresWriteMemory :=
  fun _ _ _ hi h => exec_mem_of_not_store hi h

/-- Settles O27, for a step and for each operation of the host. -/
theorem storeSizesAndParametersAreFixed : Obligations.StoreSizesAndParametersAreFixed :=
  ⟨fun _ _ h => step_sameShape h, fun _ _ h => h.sameShape⟩

/-- Settles O56: the store leaves `pc` at the address it wrote, and the word there is the word stored. -/
theorem storedWordIsFetchedNext : Obligations.StoredWordIsFetchedNext := by
  rintro rt rs imm s ea hb hea hal hin rfl
  have hplace : byteOffset s.npc + 4 ≤ 4 := by unfold byteOffset; omega
  obtain ⟨t, hexec, hstored⟩ :=
    store_result (v := s.readReg rt) hea hal hb (by rwa [alignedBase_of_aligned hal]) hplace
  have hword := hstored.wordAt
  obtain ⟨_, hsize, hblock, _, ⟨hpc, _⟩, _⟩ := hstored
  refine ⟨t, hexec, ?_⟩
  rw [fetch_inside (hblock.trans hb) (by rwa [hpc]) (by rwa [hpc, hsize]), hpc, hword]

/-- Settles O17: the fetch is the block read at `pc`, and decode follows it. -/
theorem fetchAndDecodeFailInOrder : Obligations.FetchAndDecodeFailInOrder := by
  intro s hb
  refine ⟨fun hal => ?_, fun hal hout => ?_, fun hal hin hdecode => ?_⟩
  · exact step_of_fetch_error (fetch_misaligned hb hal) hb
  · exact step_of_fetch_error (fetch_outside hb hal hout) hb
  · exact step_of_decode_error (fetch_inside hb hal hin) hdecode hb

/-- Settles O59: the calls are the block operations on the CPU's memory, and a write replaces memory and nothing else. -/
theorem hostMemoryWriteThenRead : Obligations.HostMemoryWriteThenRead := by
  intro c addr len bytes
  refine ⟨fun hal => ?_, fun hstart hend hout => ?_, fun hstart hend hin => ?_, memWriteCall_of_short⟩
  · have hcheck := Memory.checkSpan_misaligned hal
    exact ⟨memReadCall_of_error hcheck, fun hlen => memWriteCall_of_error hlen hcheck⟩
  · have hcheck := Memory.checkSpan_outside hstart hend hout
    exact ⟨memReadCall_of_error hcheck, fun hlen => memWriteCall_of_error hlen hcheck⟩
  · have hcheck := Memory.checkSpan_ok hstart hend hin
    refine ⟨⟨_, memReadCall_of_ok hcheck, Memory.bytesAt_length _ _ _, Memory.getElem_bytesAt _ _ _⟩, fun hlen => ?_⟩
    obtain ⟨hsize, hblock, _⟩ := sameShape_withMemory_setBytes c addr.toNat (bytes.take len)
    refine ⟨_, memWriteCall_of_ok hlen hcheck, ?_, ?_, hsize, hblock, fun x => ?_,
      memReadCall_withMemory_setBytes hlen hcheck⟩
    · rintro p m rfl
      rfl
    · rintro s rfl
      rfl
    · rw [Cpu.withMemory_memory, Memory.byteAt_setBytes_take _ _ _ hlen]

end Sys2Proof.Machine
end

section
/-!
SUPPORT. The proofs of the statements on the encoding (30_encoding.md). First the laws they need and the library of
Laws/ does not have: a word of each layout as its fields, decode as the choice by opcode of those fields, what the
decoder's answer says of the word, and what a row of the opcode table says of it. Then the statements, each assembled
from these.
-/

namespace Sys2Proof

/-! ## Decoding a word of each layout (R66 to R68) -/

theorem decode_of_opcode_zero {w : Word} (hop : (fieldsOf w).opcode = 0x00#6) :
    decode w = decodeSpecial (fieldsOf w) := by
  unfold decode decodeFields
  rw [hop]
  rfl

theorem decode_of_opcode_one {w : Word} (hop : (fieldsOf w).opcode = 0x01#6) :
    decode w = decodeRegimm (fieldsOf w) := by
  unfold decode decodeFields
  rw [hop]
  rfl

theorem decode_rWord (rs rt rd : RegIdx) (shamt : Shamt) (funct : BitVec 6) :
    decode (rWord rs rt rd shamt funct) = decodeSpecial
      { fieldsOf (rWord rs rt rd shamt funct) with opcode := 0x00#6, rs, rt, rd, shamt, funct } := by
  rw [decode_of_opcode_zero (fieldsOf_rWord_opcode ..)]
  refine congrArg decodeSpecial ?_
  rw [Fields.mk.injEq]
  exact ⟨fieldsOf_rWord_opcode .., fieldsOf_rWord_rs .., fieldsOf_rWord_rt .., fieldsOf_rWord_rd ..,
    fieldsOf_rWord_shamt .., fieldsOf_rWord_funct .., rfl, rfl⟩

theorem decode_iWord (opcode : BitVec 6) (rs rt : RegIdx) (imm : Imm16) :
    decode (iWord opcode rs rt imm) = decodeFields { fieldsOf (iWord opcode rs rt imm) with opcode, rs, rt, imm } := by
  refine congrArg decodeFields ?_
  rw [Fields.mk.injEq]
  exact ⟨fieldsOf_iWord_opcode .., fieldsOf_iWord_rs .., fieldsOf_iWord_rt .., rfl, rfl, rfl,
    fieldsOf_iWord_imm .., rfl⟩

theorem decode_jWord (opcode : BitVec 6) (target : Target26) :
    decode (jWord opcode target) = decodeFields { fieldsOf (jWord opcode target) with opcode, target } := by
  refine congrArg decodeFields ?_
  rw [Fields.mk.injEq]
  exact ⟨fieldsOf_jWord_opcode .., rfl, rfl, rfl, rfl, rfl, rfl, fieldsOf_jWord_target ..⟩

/-- A word with opcode 0 is the R-type word of its fields (R74). -/
theorem rWord_of_opcode {w : Word} (hop : (fieldsOf w).opcode = 0x00#6) :
    rWord (fieldsOf w).rs (fieldsOf w).rt (fieldsOf w).rd (fieldsOf w).shamt (fieldsOf w).funct = w := by
  have hw := fields_rWord w
  rwa [hop] at hw

theorem exists_rWord_eq {w : Word} (hop : (fieldsOf w).opcode = 0x00#6) :
    ∃ rs rt rd shamt funct, rWord rs rt rd shamt funct = w := ⟨_, _, _, _, _, rWord_of_opcode hop⟩

theorem exists_iWord_eq (w : Word) : ∃ opcode rs rt imm, iWord opcode rs rt imm = w :=
  ⟨_, _, _, _, fields_iWord w⟩

/-- With the layout of its word known, an instruction's opcode and code select its own entry, and the field check of the
entry holds. -/
theorem decode_encode (i : Instr) : decode (encode i) = .ok i := by
  cases i with
  | sll | srl | sra | sllv | srlv | jr | mfhi | mflo | mult | multu | div | divu | add | addu | sub | subu | and | or
  | xor | slt | sltu => exact decode_rWord ..
  | j | jal => exact decode_jWord ..
  | bltz | bgez | bltzal | bgezal | beq | bne | blez | bgtz | addi | addiu | slti | sltiu | andi | ori | xori | lui
  | lb | lwl | lw | lbu | lwr | sb | sh | sw => exact decode_iWord ..

/-! ## What the decoder's answer says of the fields -/

theorem accept_eq_error {b : Bool} (hb : b = false) (i : Instr) : accept b i = .error .invalidInstruction := by
  subst hb
  rfl

/-- An accepted entry encodes to a word when it does so under its field check. -/
theorem encode_of_accept {b : Bool} {i i' : Instr} {w : Word} (h : accept b i = .ok i')
    (hw : b = true → encode i = w) : encode i' = w := by
  obtain ⟨hb, rfl⟩ := accept_inv h
  exact hw hb

theorem encode_of_decodeSpecial {f : Fields} {i : Instr} (h : decodeSpecial f = .ok i) :
    encode i = rWord f.rs f.rt f.rd f.shamt f.funct := by
  unfold decodeSpecial at h
  split at h
  case h_22 => cases h
  all_goals
    rename_i hfunct
    refine encode_of_accept h fun hok => ?_
    simp only [Fields.shiftOk, Fields.plainOk, Fields.moveOk, Fields.mulDivOk, Bool.and_eq_true, beq_iff_eq] at hok
    simp only [encode, hok, hfunct]

theorem encode_of_decodeRegimm {f : Fields} {i : Instr} (h : decodeRegimm f = .ok i) :
    encode i = iWord 0x01#6 f.rs f.rt f.imm := by
  unfold decodeRegimm at h
  split at h <;> cases h
  all_goals
    rename_i hrt
    rw [hrt]
    rfl

/-- The encoding of what a word decodes to has the word's opcode and the fields of its layout. -/
theorem encode_of_decode {w : Word} {i : Instr} (h : decode w = .ok i) : encode i = w := by
  have hi := fields_iWord w
  have hj := fields_jWord w
  unfold decode decodeFields at h
  split at h
  case h_1 hop => rw [encode_of_decodeSpecial h, rWord_of_opcode hop]
  case h_2 hop => rw [encode_of_decodeRegimm h, ← hop, hi]
  case h_3 hop | h_4 hop => cases h; rw [hop] at hj; exact hj
  case h_16 hop =>
    refine encode_of_accept h fun hok => ?_
    rw [Fields.luiOk, beq_iff_eq] at hok
    rw [hop, hok] at hi
    exact hi
  case h_25 => cases h
  all_goals
    rename_i hop
    cases h
    rw [hop] at hi
    exact hi

/-! ## What a row of the opcode table says of a word -/

/-- The table lists the rows in the order of the constructors. -/
theorem row_mem_opcodeTable (i : Instr) : i.row ∈ opcodeTable := by
  have hrow : opcodeTable[i.ctorIdx]? = some i.row := by cases i <;> rfl
  exact List.mem_of_getElem? hrow

/-- Every row is that of the instruction that its own pattern decodes to. -/
theorem exists_row_eq {r : OpcodeRow} (hr : r ∈ opcodeTable) : ∃ i : Instr, i.row = r := by
  have hpattern : ∀ r ∈ opcodeTable, (decode r.pattern).map Instr.row = .ok r := by decide
  have h := hpattern r hr
  cases hi : decode r.pattern with
  | error e => rw [hi] at h; cases h
  | ok i => rw [hi] at h; exact ⟨i, Except.ok.inj h⟩

open Laws.EncodeRow in
/-- The facts of Laws/PerInstr.lean, of all instructions at once. -/
theorem encode_and_rowMask (i : Instr) : encode i &&& i.row.mask = i.row.pattern :=
  match i with
  | .sll _ _ _ => sll .. | .srl _ _ _ => srl .. | .sra _ _ _ => sra .. | .sllv _ _ _ => sllv ..
  | .srlv _ _ _ => srlv .. | .jr _ _ _ => jr .. | .mfhi _ => mfhi .. | .mflo _ => mflo ..
  | .mult _ _ => mult .. | .multu _ _ => multu .. | .div _ _ => div .. | .divu _ _ => divu ..
  | .add _ _ _ => add .. | .addu _ _ _ => addu .. | .sub _ _ _ => sub .. | .subu _ _ _ => subu ..
  | .and _ _ _ => and .. | .or _ _ _ => or .. | .xor _ _ _ => xor .. | .slt _ _ _ => slt ..
  | .sltu _ _ _ => sltu .. | .bltz _ _ => bltz .. | .bgez _ _ => bgez .. | .bltzal _ _ => bltzal ..
  | .bgezal _ _ => bgezal .. | .j _ => j .. | .jal _ => jal .. | .beq _ _ _ => beq .. | .bne _ _ _ => bne ..
  | .blez _ _ _ => blez .. | .bgtz _ _ _ => bgtz .. | .addi _ _ _ => addi .. | .addiu _ _ _ => addiu ..
  | .slti _ _ _ => slti .. | .sltiu _ _ _ => sltiu .. | .andi _ _ _ => andi .. | .ori _ _ _ => ori ..
  | .xori _ _ _ => xori .. | .lui _ _ => lui .. | .lb _ _ _ => lb .. | .lwl _ _ _ => lwl .. | .lw _ _ _ => lw ..
  | .lbu _ _ _ => lbu .. | .lwr _ _ _ => lwr .. | .sb _ _ _ => sb .. | .sh _ _ _ => sh .. | .sw _ _ _ => sw ..

/-- Every mask covers the opcode. -/
theorem opcode_of_rowMask {i : Instr} {w : Word} (h : w &&& i.row.mask = i.row.pattern) :
    (fieldsOf w).opcode = (fieldsOf i.row.pattern).opcode := by
  have hmasks : ∀ r ∈ opcodeTable, (fieldsOf r.mask).opcode = 0x3F#6 := by decide
  have hmask := hmasks i.row (row_mem_opcodeTable i)
  calc (fieldsOf w).opcode
    _ = (fieldsOf w).opcode &&& (fieldsOf i.row.mask).opcode := by rw [hmask, and_ones6]
    _ = (fieldsOf (w &&& i.row.mask)).opcode := BitVec.extractLsb'_and.symm
    _ = (fieldsOf i.row.pattern).opcode := by rw [h]

theorem rWord_eq_inv {rs rt rd : RegIdx} {shamt : Shamt} {funct : BitVec 6} {p : Word}
    (h : rWord rs rt rd shamt funct = p) : (fieldsOf p).rs = rs ∧ (fieldsOf p).rt = rt ∧ (fieldsOf p).rd = rd ∧
      (fieldsOf p).shamt = shamt ∧ (fieldsOf p).funct = funct := by
  subst h
  exact ⟨fieldsOf_rWord_rs .., fieldsOf_rWord_rt .., fieldsOf_rWord_rd .., fieldsOf_rWord_shamt ..,
    fieldsOf_rWord_funct ..⟩

theorem iWord_eq_inv {opcode : BitVec 6} {rs rt : RegIdx} {imm : Imm16} {p : Word} (h : iWord opcode rs rt imm = p) :
    (fieldsOf p).opcode = opcode ∧ (fieldsOf p).rs = rs ∧ (fieldsOf p).rt = rt := by
  subst h
  exact ⟨fieldsOf_iWord_opcode .., fieldsOf_iWord_rs .., fieldsOf_iWord_rt ..⟩

/-- Under the mask of its row a word's opcode and code are those of the row's pattern, and its checked fields are 0. -/
theorem exists_decode_of_rowMask {i : Instr} {w : Word} (h : w &&& i.row.mask = i.row.pattern) :
    ∃ i', decode w = .ok i' ∧ i'.row = i.row := by
  have hop := opcode_of_rowMask h
  cases i with
  | sll | srl | sra =>
    rw [Instr.row] at h hop
    obtain ⟨rs, rt, rd, shamt, funct, rfl⟩ := exists_rWord_eq hop
    obtain ⟨rfl, -, -, -, rfl⟩ := rWord_eq_inv ((rWord_mask_shift ..).symm.trans h)
    exact ⟨_, decode_rWord .., rfl⟩
  | sllv | srlv | jr | add | addu | sub | subu | and | or | xor | slt | sltu =>
    rw [Instr.row] at h hop
    obtain ⟨rs, rt, rd, shamt, funct, rfl⟩ := exists_rWord_eq hop
    obtain ⟨-, -, -, rfl, rfl⟩ := rWord_eq_inv ((rWord_mask_plain ..).symm.trans h)
    exact ⟨_, decode_rWord .., rfl⟩
  | mfhi | mflo =>
    rw [Instr.row] at h hop
    obtain ⟨rs, rt, rd, shamt, funct, rfl⟩ := exists_rWord_eq hop
    obtain ⟨rfl, rfl, -, rfl, rfl⟩ := rWord_eq_inv ((rWord_mask_move ..).symm.trans h)
    exact ⟨_, decode_rWord .., rfl⟩
  | mult | multu | div | divu =>
    rw [Instr.row] at h hop
    obtain ⟨rs, rt, rd, shamt, funct, rfl⟩ := exists_rWord_eq hop
    obtain ⟨-, -, rfl, rfl, rfl⟩ := rWord_eq_inv ((rWord_mask_mulDiv ..).symm.trans h)
    exact ⟨_, decode_rWord .., rfl⟩
  | bltz | bgez | bltzal | bgezal =>
    rw [Instr.row] at h
    obtain ⟨opcode, rs, rt, imm, rfl⟩ := exists_iWord_eq w
    obtain ⟨rfl, -, rfl⟩ := iWord_eq_inv ((iWord_mask_regimm ..).symm.trans h)
    exact ⟨_, decode_iWord .., rfl⟩
  | lui =>
    rw [Instr.row] at h
    obtain ⟨opcode, rs, rt, imm, rfl⟩ := exists_iWord_eq w
    obtain ⟨rfl, rfl, -⟩ := iWord_eq_inv ((iWord_mask_lui ..).symm.trans h)
    exact ⟨_, decode_iWord .., rfl⟩
  | j | jal =>
    rw [Instr.row] at hop
    rw [← fields_jWord w, hop]
    exact ⟨_, decode_jWord .., rfl⟩
  | beq | bne | blez | bgtz | addi | addiu | slti | sltiu | andi | ori | xori | lb | lwl | lw | lbu | lwr
  | sb | sh | sw =>
    rw [Instr.row] at h
    obtain ⟨opcode, rs, rt, imm, rfl⟩ := exists_iWord_eq w
    obtain ⟨rfl, -, -⟩ := iWord_eq_inv ((iWord_mask_opcode ..).symm.trans h)
    exact ⟨_, decode_iWord .., rfl⟩

/-! ## The words that no entry matches -/

/-- R77, condition 2 of the entries that are no shift by `shamt`. -/
theorem decodeSpecial_of_shamt_ne {f : Fields} (hfunct : f.funct ∉ [0x00#6, 0x02#6, 0x03#6])
    (hshamt : f.shamt ≠ 0#5) : decodeSpecial f = .error .invalidInstruction := by
  unfold decodeSpecial
  split
  case h_1 h | h_2 h | h_3 h => exact absurd hfunct (by rw [h]; decide)
  case h_22 => rfl
  all_goals exact accept_eq_error (by simp [Fields.plainOk, Fields.moveOk, Fields.mulDivOk, hshamt]) _

theorem decodeSpecial_of_unused {f : Fields}
    (h : f.funct.toNat ∈ [0x01, 0x05, 0x07] ++ List.range' 0x09 7 ++ [0x11] ++ List.range' 0x13 5
        ++ List.range' 0x1C 4 ++ List.range' 0x27 3 ++ List.range' 0x2C 20) :
    decodeSpecial f = .error .invalidInstruction := by
  unfold decodeSpecial
  split
  case h_22 => rfl
  all_goals
    rename_i hfunct
    rw [hfunct] at h
    exact absurd h (by decide)

theorem decodeRegimm_of_unused {f : Fields} (h : f.rt ∉ [0x00#5, 0x01#5, 0x10#5, 0x11#5]) :
    decodeRegimm f = .error .invalidInstruction := by
  unfold decodeRegimm
  split
  case h_5 => rfl
  all_goals
    rename_i hrt
    rw [hrt] at h
    exact absurd h (by decide)

theorem decodeFields_of_unused {f : Fields}
    (h : f.opcode.toNat ∈ List.range' 0x10 16 ++ [0x21, 0x25, 0x27, 0x2A] ++ List.range' 0x2C 20) :
    decodeFields f = .error .invalidInstruction := by
  unfold decodeFields
  split
  case h_25 => rfl
  all_goals
    rename_i hop
    rw [hop] at h
    exact absurd h (by decide)

/-! ## Structural types (R64) and field accessors (R69) -/

theorem format_eq_rType_iff (i : Instr) : i.format = .rType ↔ (fieldsOf (encode i)).opcode = 0x00#6 := by
  unfold Instr.format
  split <;> simp_all

theorem format_eq_jType_iff (i : Instr) :
    i.format = .jType ↔ (fieldsOf (encode i)).opcode = 0x02#6 ∨ (fieldsOf (encode i)).opcode = 0x03#6 := by
  unfold Instr.format
  split <;> simp_all

/-- The opcodes of J and JAL select no other entry: the instruction is what its word decodes to. -/
theorem encode_opcode_jump_iff (i : Instr) :
    ((fieldsOf (encode i)).opcode = 0x02#6 ∨ (fieldsOf (encode i)).opcode = 0x03#6) ↔
      ∃ target, i = .j target ∨ i = .jal target := by
  constructor
  · have hi := decode_encode i
    unfold decode decodeFields at hi
    rintro (hop | hop) <;> rw [hop] at hi
    · exact ⟨_, .inl (Except.ok.inj hi).symm⟩
    · exact ⟨_, .inr (Except.ok.inj hi).symm⟩
  · rintro ⟨target, rfl | rfl⟩
    · exact .inl (fieldsOf_jWord_opcode ..)
    · exact .inr (fieldsOf_jWord_opcode ..)

end Sys2Proof

namespace Sys2Proof.Machine

theorem readField_of_hasField {i : Instr} {n : FieldName} (h : i.format.hasField n = true) :
    readField i n = .ok ((fieldsOf (encode i)).get n) := by
  unfold readField Instr.field?
  rw [if_pos h]

theorem readField_of_not_hasField {i : Instr} {n : FieldName} (h : i.format.hasField n = false) :
    readField i n = .error .internalError := by
  unfold readField Instr.field?
  rw [h]
  rfl

/-! ## The statements -/

/-- Settles O9: in each layout the decoder reads back the fields that the encoder wrote. -/
theorem decodeOfEncodeIsTheInstruction : Obligations.DecodeOfEncodeIsTheInstruction := decode_encode

/-- Settles O10: the accepted entry keeps every field that its check does not force to be 0. -/
theorem encodeOfDecodeIsTheWord : Obligations.EncodeOfDecodeIsTheWord := fun _ _ => encode_of_decode

/-- Settles O11: a word that decodes is the encoding of an instruction, which is a word of its row; and each row is an
instruction's, whose words the decoder accepts. -/
theorem decoderAcceptsExactlyTheOpcodeTable : Obligations.DecoderAcceptsExactlyTheOpcodeTable := by
  refine ⟨fun w i h => ⟨row_mem_opcodeTable i, ?_⟩, fun r hr w h => ?_⟩
  · rw [← encode_of_decode h]
    exact beq_iff_eq.mpr (encode_and_rowMask i)
  · obtain ⟨i, rfl⟩ := exists_row_eq hr
    exact exists_decode_of_rowMask (beq_iff_eq.mp h)

/-- Settles O12: none of the listed values selects an entry. -/
theorem unusedCodesAreInvalidInstructions : Obligations.UnusedCodesAreInvalidInstructions := by
  refine fun w => ⟨fun hop hfunct => ?_, fun hop hrt => ?_, fun hop => decodeFields_of_unused hop⟩
  · exact (decode_of_opcode_zero hop).trans (decodeSpecial_of_unused hfunct)
  · exact (decode_of_opcode_one hop).trans (decodeRegimm_of_unused hrt)

/-- Settles O13: the entry that the opcode and the function code select fails its field check. -/
theorem reservedFieldsMustBeZero : Obligations.ReservedFieldsMustBeZero := by
  refine fun rs rt rd shamt funct imm => ⟨fun hf hrs => ?_, fun hf hshamt => ?_, fun hf hrd => ?_, fun hf hr => ?_,
    fun hrs => ?_⟩
  · have hcheck : (rs == 0#5) = false := beq_false_of_ne hrs
    rw [decode_rWord]
    fin_cases hf <;> exact accept_eq_error hcheck _
  · exact (decode_rWord ..).trans (decodeSpecial_of_shamt_ne hf hshamt)
  · have hcheck : (shamt == 0#5 && rd == 0#5) = false := by simp [hrd]
    rw [decode_rWord]
    fin_cases hf <;> exact accept_eq_error hcheck _
  · have hcheck : (shamt == 0#5 && rs == 0#5 && rt == 0#5) = false := by
      rcases hr with h | h <;> simp [h]
    rw [decode_rWord]
    fin_cases hf <;> exact accept_eq_error hcheck _
  · exact (decode_iWord ..).trans (accept_eq_error (beq_false_of_ne hrs) _)

/-- Settles O15: the type follows the opcode, by which J and JAL are the J-type entries. -/
theorem fieldAccessorsFollowTheStructuralType : Obligations.FieldAccessorsFollowTheStructuralType :=
  fun i _ => ⟨(format_eq_jType_iff i).trans (encode_opcode_jump_iff i), format_eq_rType_iff i, readField_of_hasField,
    readField_of_not_hasField⟩

end Sys2Proof.Machine
end

section
/-!
SUPPORT. The proofs of the statements on the step (40_pipeline.md). First the laws they need and the library of Laws/
does not have: one equation per outcome of a step call, the state after a failed step, what a register reads after an
instruction, and each stage table on each class of instructions. Then the statements, each assembled from these.
-/

namespace Sys2Proof.Machine

/-! ## The step call, one equation per outcome -/

section
variable {s : State}

theorem stepCall_of_next {t : State} (h : step s = .next t) : stepCall (.ready s) = .ok (.ready t, .ok ()) := by
  simp only [stepCall, h]

theorem stepCall_of_fault {e : Fault} (h : step s = .fault e) :
    stepCall (.ready s) = .ok (.ready (afterFailedStep s), .error e) := by
  simp only [stepCall, h]

theorem stepCall_of_refused {r : Refusal} (h : step s = .refused r) : stepCall (.ready s) = .error r := by
  simp only [stepCall, h]

/-! ## The state after a failed step -/

theorem afterFailedStep_of_fetch_error {e : Fault} (h : fetch s = .error e) : afterFailedStep s = s := by
  simp only [afterFailedStep, h]

theorem afterFailedStep_of_fetch_ok {w : Word} (h : fetch s = .ok w) : afterFailedStep s = { s with ir := w } := by
  simp only [afterFailedStep, h]

/-- R25: a step that fails does so whatever `ir` holds. -/
theorem step_withIr_of_fault {e : Fault} (h : step s = .fault e) (x : Word) : step { s with ir := x } = .fault e := by
  obtain ⟨_, hstep⟩ := step_withIrLmd s x s.lmd
  exact hstep.trans (congrArg _ h)

end

/-! ## The general registers -/

/-- R18: a write changes no other register. -/
theorem State.readReg_writeReg_of_ne (s : State) {r q : RegIdx} (hq : q ≠ r) (v : Word) :
    (s.writeReg r v).readReg q = s.readReg q := by
  rw [State.readReg_writeReg, if_neg hq]
  split
  · next hzero => rw [hzero, State.readReg_zero]
  · rfl

/-- R95, R99: an instruction changes no register but its destination. -/
theorem exec_readReg_of_ne_destReg {i : Instr} {s t : State} (h : exec i s = .next t) {r : RegIdx}
    (hr : destReg i ≠ some r) : t.readReg r = s.readReg r := by
  rcases exec_shape h with ⟨_, _, _, hwrite⟩ | ⟨_, _, hhilo⟩ | ⟨_, _, hcontrol⟩ | ⟨_, _, hstore⟩
  · obtain ⟨rd, v, l, hd, rfl⟩ := hwrite
    have hne : r ≠ rd := fun heq => hr (hd.trans (congrArg some heq.symm))
    exact State.readReg_writeReg_of_ne _ hne v
  · obtain ⟨_, h, l, rfl⟩ := hhilo
    rfl
  · obtain ⟨_, target, rfl | ⟨hd, rfl⟩⟩ := hcontrol
    · rfl
    · have hne : r ≠ linkReg := fun heq => hr (hd.trans (congrArg some heq.symm))
      exact State.readReg_writeReg_of_ne s hne _
  · obtain ⟨_, ea, n, v, m, _, rfl⟩ := hstore
    rfl

/-! ## What the ALU delivers (R89) -/

@[simp] theorem AluResult.ofOut_out (w : Word) : (AluResult.ofOut w).out = w := rfl

/-! ## MEM and WB on each class of instructions (R93, R95) -/

section
variable {i : Instr} {s : State}

theorem memStage_of_control (hc : isControl i = true) (out : Word) (s : State) :
    memStage i out s = .ok ((if links i out s.params then s.link else s).redirect (controlNpc i out s)) := if_pos hc

theorem memStage_of_access (h : isLoad i = true ∨ isStore i = true) (ea : Word) (s : State) :
    memStage i ea s = accessMemory i ea s := by
  cases i
  case lb | lbu | lw | lwl | lwr | sb | sh | sw => rfl
  all_goals rcases h with h | h <;> cases h

theorem memStage_of_hiLo (hw : writesHiLo i = true) (out : Word) (s : State) : memStage i out s = .ok s := by
  cases i
  case mult | multu | div | divu => rfl
  all_goals cases hw

theorem memStage_of_destReg {rd : RegIdx} (hd : destReg i = some rd) (hc : isControl i = false) (hl : isLoad i = false)
    (out : Word) (s : State) : memStage i out s = .ok s := by
  cases i
  case lb | lbu | lw | lwl | lwr => cases hl
  case bltzal | bgezal | jal => cases hc
  case jr | mult | multu | div | divu | bltz | bgez | j | beq | bne | blez | bgtz | sb | sh | sw => cases hd
  all_goals rfl

theorem storeMemory_of_load (hl : isLoad i = true) (ea : Word) (s : State) : storeMemory i ea s = .ok s.mem := by
  cases i
  case lb | lbu | lw | lwl | lwr => rfl
  all_goals cases hl

theorem loadValue_of_store (hs : isStore i = true) (ea : Word) (s : State) : loadValue i ea s = .ok s.lmd := by
  cases i
  case sb | sh | sw => rfl
  all_goals cases hs

theorem writeBack_of_load {rt : RegIdx} (hl : isLoad i = true) (hd : destReg i = some rt) (r : AluResult) (s : State) :
    writeBack i r s = .ok (s.writeReg rt s.lmd) := by
  cases i
  case lb | lbu | lw | lwl | lwr =>
    cases hd
    rfl
  all_goals cases hl

theorem writeBack_of_store (hs : isStore i = true) (r : AluResult) (s : State) : writeBack i r s = .ok s := by
  cases i
  case sb | sh | sw => rfl
  all_goals cases hs

theorem writeBack_of_hiLo (hw : writesHiLo i = true) (r : AluResult) (s : State) :
    writeBack i r s = .ok { s with hi := r.hi, lo := r.lo } := by
  cases i
  case mult | multu | div | divu => rfl
  all_goals cases hw

theorem writeBack_of_destReg {rd : RegIdx} (hd : destReg i = some rd) (hc : isControl i = false)
    (hl : isLoad i = false) (r : AluResult) (s : State) : writeBack i r s = .ok (s.writeReg rd r.out) := by
  cases i
  case lb | lbu | lw | lwl | lwr => cases hl
  case bltzal | bgezal | jal => cases hc
  case jr | mult | multu | div | divu | bltz | bgez | j | beq | bne | blez | bgtz | sb | sh | sw => cases hd
  all_goals
    cases hd
    rfl

end

/-! ## The stages in order, on each class of instructions (R84, R104)

What EX delivers is the hypothesis; the rest is the class's own shared operation of Machine/Ops.lean. -/

section
variable {i : Instr} {s : State}

/-- A failure in EX ends the step. -/
theorem runStages_of_executeStage_error {e : Fault} (hex : executeStage i s = .error e) : runStages i s = raise e := by
  simp only [runStages, hex]

/-- A branch or jump ends after MEM, which links and redirects. -/
theorem runStages_of_control (hc : isControl i = true) {r : AluResult} (hex : executeStage i s = .ok r) :
    runStages i s = .next ((if links i r.out s.params then s.link else s).redirect (controlNpc i r.out s)) := by
  simp only [runStages, hex, memStage_of_control hc, hc, if_true]

/-- A conditional branch that does not link: EX compares, MEM decides and redirects. -/
theorem runStages_of_branch (hc : isControl i = true) {out : Word} {off : Imm16}
    (hex : executeStage i s = .ok (.ofOut out)) (hlinks : links i out s.params = false)
    (hnpc : controlNpc i out s = branchNpc (branchTaken i out) s.npc off) :
    runStages i s = branch (branchTaken i out) off s := by
  simp only [runStages_of_control hc hex, AluResult.ofOut_out, hlinks, hnpc]
  rfl

/-- A conditional branch that links when taken or by the parameter. -/
theorem runStages_of_branchLink (hc : isControl i = true) {out : Word} {off : Imm16}
    (hex : executeStage i s = .ok (.ofOut out))
    (hlinks : links i out s.params = (branchTaken i out || s.params.linkOnNotTaken))
    (hnpc : controlNpc i out s = branchNpc (branchTaken i out) s.npc off) :
    runStages i s = branchLink (branchTaken i out) off s := by
  simp only [runStages_of_control hc hex, AluResult.ofOut_out, hlinks, hnpc]
  rfl

theorem runStages_of_hiLo (hw : writesHiLo i = true) (hc : isControl i = false) {p : Word × Word}
    (hex : executeStage i s = .ok (.ofHiLo p)) : runStages i s = finishHiLo p s := by
  simp only [runStages, hex, memStage_of_hiLo hw, hc, writeBack_of_hiLo hw]
  rfl

/-- An instruction that writes the result of the ALU to its destination. -/
theorem runStages_of_destReg {rd : RegIdx} (hd : destReg i = some rd) (hc : isControl i = false)
    (hl : isLoad i = false) {v : Except Fault Word} (hex : executeStage i s = v.map .ofOut) :
    runStages i s = finishChecked rd v s := by
  cases v with
  | error e => exact runStages_of_executeStage_error hex
  | ok w =>
    have hex : executeStage i s = .ok (.ofOut w) := hex
    simp only [runStages, hex, memStage_of_destReg hd hc hl, hc, writeBack_of_destReg hd hc hl]
    rfl

/-- A load: EX computes the effective address, MEM puts memory's word into `lmd`, WB writes `lmd` to `rt`. -/
theorem runStages_of_load (hl : isLoad i = true) (hc : isControl i = false) {rt : RegIdx} (hd : destReg i = some rt)
    {rs : RegIdx} {imm : Imm16} (hex : executeStage i s = (effectiveAddress rs imm s).map .ofOut) :
    runStages i s = load rt rs imm (mandatedAlignment i) (loadValue i · s) s := by
  unfold load
  cases hea : effectiveAddress rs imm s with
  | error e => exact runStages_of_executeStage_error (by rw [hex, hea]; rfl)
  | ok ea =>
    have hex : executeStage i s = .ok (.ofOut ea) := by rw [hex, hea]; rfl
    simp only [runStages, hex, memStage_of_access (.inl hl), hc, writeBack_of_load hl hd]
    simp only [accessMemory, AluResult.ofOut_out, storeMemory_of_load hl]
    cases checkAligned ea (mandatedAlignment i) with
    | error e => rfl
    | ok _ =>
      dsimp only
      cases loadValue i ea s <;> rfl

/-- A store: EX computes the effective address, MEM writes memory, WB does nothing. -/
theorem runStages_of_store (hs : isStore i = true) (hc : isControl i = false) {rs : RegIdx} {imm : Imm16} {v : Word}
    (hex : executeStage i s = (effectiveAddress rs imm s).map .ofOut)
    (hmem : ∀ ea, storeMemory i ea s = s.mem.memWrite ea (mandatedAlignment i) v) :
    runStages i s = store rs imm (mandatedAlignment i) v s := by
  unfold store
  cases hea : effectiveAddress rs imm s with
  | error e => exact runStages_of_executeStage_error (by rw [hex, hea]; rfl)
  | ok ea =>
    have hex : executeStage i s = .ok (.ofOut ea) := by rw [hex, hea]; rfl
    simp only [runStages, hex, memStage_of_access (.inr hs), hc, writeBack_of_store hs]
    simp only [accessMemory, AluResult.ofOut_out, loadValue_of_store hs, hmem]
    cases checkAligned ea (mandatedAlignment i) with
    | error e => rfl
    | ok _ =>
      dsimp only
      cases s.mem.memWrite ea (mandatedAlignment i) v <;> rfl

/-- R144: the sum that EX computes is the target, and its overflow is the only failure. -/
theorem runStages_jr (rs rt rd : RegIdx) (s : State) : runStages (.jr rs rt rd) s = execJr rs rt s := by
  have hex : executeStage (.jr rs rt rd) s =
      (sadd s.params.eaOverflowCheck (s.readReg rs) (s.readReg rt)).map .ofOut := rfl
  unfold execJr
  cases hsum : sadd s.params.eaOverflowCheck (s.readReg rs) (s.readReg rt) with
  | error e => exact runStages_of_executeStage_error (by rw [hex, hsum]; rfl)
  | ok t => exact runStages_of_control (r := .ofOut t) rfl (by rw [hex, hsum]; rfl)

/-- R104: what follows EX is, class by class, the shared operation that the instruction's own rule is written with. -/
theorem exec_eq_runStages (i : Instr) (s : State) : exec i s = runStages i s := by
  symm
  cases i
  case add | sub | addi => exact runStages_of_destReg rfl rfl rfl rfl
  case lb | lbu | lw | lwl | lwr => exact runStages_of_load rfl rfl rfl rfl
  case sb | sh | sw => exact runStages_of_store rfl rfl rfl fun _ => rfl
  case mult | multu | div | divu => exact runStages_of_hiLo rfl rfl rfl
  case jr rs rt rd => exact runStages_jr rs rt rd s
  case beq | bne | blez | bgtz | bltz | bgez => exact runStages_of_branch rfl rfl rfl rfl
  case bltzal | bgezal => exact runStages_of_branchLink rfl rfl rfl rfl
  case j | jal => exact runStages_of_control rfl (r := .ofOut _) rfl
  all_goals exact runStages_of_destReg (v := .ok _) rfl rfl rfl rfl

end

/-! ## The statements -/

/-- Settles O30, from the stages in order on each class of instructions. -/
theorem meaningsAreTheStageComposition : Obligations.MeaningsAreTheStageComposition := exec_eq_runStages

/-- Settles O20: of the failures of an instruction, an overflow without the parameter is that of ADD, SUB or ADDI. -/
theorem onlySignedAddAndSubtractOverflow : Obligations.OnlySignedAddAndSubtractOverflow := by
  intro i s hp h
  obtain ⟨_, hcheck | hinstr⟩ | hkind | hkind := exec_fault h
  · rw [hp] at hcheck
    cases hcheck
  · exact hinstr
  · cases hkind
  · cases hkind

/-- Settles O21: `w` is the fetched word, or the old `ir` when the fetch fails. `ir` decides neither the fetch nor the
failure, so the retry finds the same. -/
theorem failedStepChangesOnlyIrAndIsRetried : Obligations.FailedStepChangesOnlyIrAndIsRetried := by
  intro s c e h
  obtain ⟨s, hs, ⟨t, _, _, hr⟩ | ⟨f, hstep, rfl, hr⟩⟩ := stepCall_cases h
  · cases hr
  cases hs
  cases hr
  cases hfetch : fetch s with
  | error f =>
    have hafter := afterFailedStep_of_fetch_error hfetch
    refine ⟨s.ir, congrArg _ hafter, fun _ _ => rfl, nofun, ?_⟩
    rwa [hafter] at h ⊢
  | ok v =>
    have hafter := afterFailedStep_of_fetch_ok hfetch
    refine ⟨v, congrArg _ hafter, nofun, fun _ hv => Except.ok.inj hv, ?_⟩
    have hagain : afterFailedStep { s with ir := v } = { s with ir := v } := afterFailedStep_of_fetch_ok hfetch
    rw [hafter, stepCall_of_fault (step_withIr_of_fault hstep v), hagain]

/-- Settles O28, from the shapes of a next state. -/
theorem onlyTheDestinationRegisterChanges : Obligations.OnlyTheDestinationRegisterChanges :=
  fun _ _ _ _ h hr => exec_readReg_of_ne_destReg h hr

/-- Settles O16: fetch delivers the word at `pc`, and the step call answers by the outcome of the step. -/
theorem stepRunsTheDecodedInstruction : Obligations.StepRunsTheDecodedInstruction := by
  refine ⟨?_, fun s => ⟨fun _ h => stepCall_of_next h, fun _ h => ⟨_, stepCall_of_fault h⟩,
    fun _ h => stepCall_of_refused h⟩⟩
  rintro s i ⟨hb, hal, hin, hdecode⟩
  exact step_of_decode_ok (fetch_inside hb hal hin) hdecode hb

end Sys2Proof.Machine
end

section
/-!
SUPPORT. The proofs of the statements on arithmetic (41_arithmetic.md) and on the example words of the instruction rules.
First the laws they need and the library of Laws/ does not have: the wrapped sums and differences in integers, what the
checked operations, the multiplies and the divides deliver. Then the statements, each a write-back of such a value.
-/

namespace Sys2Proof.Machine

/-! ## Write-back of a value with a property -/

/-- A write-back leaves in `rd` a word with every property of the word it is given. -/
theorem finish_result_of {p : Word → Prop} {rd : RegIdx} {w : Word} {s : State} (hw : p w) :
    ∃ t v, finish rd w s = .next t ∧ p v ∧ RegResult s t rd v := by
  obtain ⟨t, ht, hres⟩ := finish_result rd w s
  exact ⟨t, w, ht, hw, hres⟩

/-! ## Sums and differences modulo 2^32 (R89) -/

theorem natCast_toNat_sub (a b : Word) : ((a - b).toNat : Int) = (a.toNat - b.toNat : Int) % 2 ^ 32 := by
  rw [BitVec.toNat_sub]
  omega

/-- One summand may be read as signed: the two readings of a word are the same modulo 2^32. -/
theorem natCast_toNat_add_toInt (a b : Word) : ((a + b).toNat : Int) = (a.toNat + b.toInt : Int) % 2 ^ 32 := by
  rw [BitVec.toNat_add, BitVec.toInt_eq_toNat_cond]
  split <;> omega

/-! ## Checked sums and differences (R90) -/

theorem ssub_fits {a b : Word} (h : fitsS32 (a.toInt - b.toInt) = true) : ssub a b = .ok (a - b) := by
  simp [ssub, h]

theorem ssub_overflow {a b : Word} (h : fitsS32 (a.toInt - b.toInt) = false) :
    ssub a b = .error .arithmeticOverflow := by
  simp [ssub, h]

/-- The answer is the write-back of the exact integer `t` to `rd` when `t` fits in 32 bits, and `ArithmeticOverflow`
when it does not. -/
def ExactOrOverflow (rd : RegIdx) (t : Int) (s : State) (r : Answer) : Prop :=
  (FitsSigned32 t → ∃ u v, r = .next u ∧ v.toInt = t ∧ RegResult s u rd v) ∧
    (¬FitsSigned32 t → r = .fault .arithmeticOverflow)

/-- It is enough that the checked value `v` is exact when `t` fits and an overflow when not. -/
theorem finishChecked_exactOrOverflow {v : Except Fault Word} {w : Word} {t : Int} (rd : RegIdx) (s : State)
    (hexact : FitsSigned32 t → v = .ok w ∧ w.toInt = t) (hover : ¬FitsSigned32 t → v = .error .arithmeticOverflow) :
    ExactOrOverflow rd t s (finishChecked rd v s) := by
  refine ⟨fun h => ?_, fun h => ?_⟩
  · obtain ⟨rfl, hw⟩ := hexact h
    exact finish_result_of hw
  · rw [hover h, finishChecked_error]

theorem finishChecked_sadd_exactOrOverflow (rd : RegIdx) (a b : Word) (s : State) :
    ExactOrOverflow rd (a.toInt + b.toInt) s (finishChecked rd (sadd true a b) s) :=
  finishChecked_exactOrOverflow rd s (fun h => ⟨sadd_fits true ((fitsS32_iff _).mpr h), toInt_add_of_fits h⟩)
    fun h => sadd_overflow (fitsS32_eq_false h)

theorem finishChecked_ssub_exactOrOverflow (rd : RegIdx) (a b : Word) (s : State) :
    ExactOrOverflow rd (a.toInt - b.toInt) s (finishChecked rd (ssub a b) s) :=
  finishChecked_exactOrOverflow rd s (fun h => ⟨ssub_fits ((fitsS32_iff _).mpr h), toInt_sub_of_fits h⟩)
    fun h => ssub_overflow (fitsS32_eq_false h)

/-! ## Products and quotients (R89) -/

/-- A product of two signed words lies within the signed 64-bit range. -/
theorem muls_toInt (a b : Word) : ((muls a b).1 ++ (muls a b).2 : BitVec 64).toInt = a.toInt * b.toInt := by
  have hlow : -2 ^ 62 ≤ a.toInt * b.toInt := BitVec.le_toInt_mul_toInt
  have hhigh : a.toInt * b.toInt ≤ 2 ^ 62 := BitVec.toInt_mul_toInt_le
  unfold muls
  rw [hiLo_append]
  exact BitVec.toInt_ofInt_eq_self (by decide) (by omega) (by omega)

/-- A product of two unsigned words is below 2^64. -/
theorem mulu_toNat (a b : Word) : ((mulu a b).1 ++ (mulu a b).2 : BitVec 64).toNat = a.toNat * b.toNat := by
  unfold mulu
  rw [hiLo_append]
  exact Nat.mod_eq_of_lt BitVec.toNat_mul_toNat_lt

section
variable (a : Word) {b : Word} (oldHi oldLo : Word)

theorem divs_zero : divs a 0#32 oldHi oldLo = Config.div0Result .div a oldHi oldLo := rfl

theorem divu_zero : divu a 0#32 oldHi oldLo = Config.div0Result .divu a oldHi oldLo := rfl

/-- DIVS is the signed division of bit vectors, which truncates too. -/
theorem divs_of_ne_zero (hb : b ≠ 0#32) : divs a b oldHi oldLo = (a.srem b, a.sdiv b) := by
  have hrem : BitVec.ofInt 32 (a.toInt.tmod b.toInt) = a.srem b := by
    rw [← BitVec.toInt_srem, BitVec.ofInt_toInt]
  have hquot : BitVec.ofInt 32 (a.toInt.tdiv b.toInt) = a.sdiv b :=
    BitVec.eq_of_toInt_eq (by rw [BitVec.toInt_ofInt, BitVec.toInt_sdiv])
  unfold divs
  rw [if_neg hb, hrem, hquot]

/-- DIVU is the unsigned division of bit vectors. -/
theorem divu_of_ne_zero (hb : b ≠ 0#32) : divu a b oldHi oldLo = (a % b, a / b) := by
  unfold divu
  rw [if_neg hb, BitVec.umod_def, BitVec.udiv_def]

/-- D15: the one quotient that does not fit wraps. -/
theorem divs_intMin_neg_one : divs 0x80000000#32 0xFFFFFFFF#32 oldHi oldLo = (0#32, 0x80000000#32) := by
  rw [divs_of_ne_zero _ _ _ (by decide)]
  decide

end

/-! ## Decoding a written-out word -/

/-- A word decodes to the instruction whose encoding it is. -/
theorem decode_of_encode {i : Instr} {w : Word} (h : encode i = w) : decode w = .ok i := by
  rw [← h, decode_encode]

/-! ## The statements -/

/-- Settles O34: ADD and ADDI write back a checked sum, SUB a checked difference. -/
theorem signedAddSubExactOrOverflow : Obligations.SignedAddSubExactOrOverflow := by
  intro rd rs rt imm s
  obtain ⟨hadd, haddOverflow⟩ := finishChecked_sadd_exactOrOverflow rd (s.readReg rs) (s.readReg rt) s
  obtain ⟨hsub, hsubOverflow⟩ := finishChecked_ssub_exactOrOverflow rd (s.readReg rs) (s.readReg rt) s
  have haddi := finishChecked_sadd_exactOrOverflow rt (s.readReg rs) (sext16 imm) s
  rw [sext16_toInt] at haddi
  obtain ⟨haddi, haddiOverflow⟩ := haddi
  exact ⟨hadd, haddOverflow, hsub, hsubOverflow, haddi, haddiOverflow⟩

/-- Settles O35: write-back always answers, and the word written is the wrapped sum or difference. -/
theorem unsignedAddSubWrap : Obligations.UnsignedAddSubWrap := by
  intro rd rs rt imm s
  have himm := natCast_toNat_add_toInt (s.readReg rs) (sext16 imm)
  rw [sext16_toInt] at himm
  exact ⟨finish_result_of (BitVec.toNat_add _ _), finish_result_of (natCast_toNat_sub _ _), finish_result_of himm⟩

/-- Settles O36: HI and LO are the halves of a 64-bit value, which the product fits. -/
theorem multiplyGivesTheExactProduct : Obligations.MultiplyGivesTheExactProduct := by
  intro rs rt s
  constructor
  · obtain ⟨t, ht, hres⟩ := finishHiLo_result (muls (s.readReg rs) (s.readReg rt)) s
    exact ⟨t, _, _, ht, muls_toInt _ _, hres⟩
  · obtain ⟨t, ht, hres⟩ := finishHiLo_result (mulu (s.readReg rs) (s.readReg rt)) s
    exact ⟨t, _, _, ht, mulu_toNat _ _, hres⟩

/-- Settles O37: outside the corner the quotient fits, and the remainder always does. -/
theorem signedDivideTruncatesTowardZero : Obligations.SignedDivideTruncatesTowardZero := by
  intro rs rt s
  obtain ⟨t, ht, hres⟩ := finishHiLo_result (divs (s.readReg rs) (s.readReg rt) s.hi s.lo) s
  refine ⟨t, _, _, ht, hres, fun hzero => ?_, fun hne hcorner => ?_, fun hmin hneg => ?_⟩
  · rw [hzero]
    exact divs_zero _ _ _
  · have hfits : s.readReg rs ≠ BitVec.intMin 32 ∨ s.readReg rt ≠ -1#32 := Decidable.not_and_iff_or_not.mp hcorner
    rw [divs_of_ne_zero _ _ _ hne]
    exact ⟨BitVec.toInt_sdiv_of_ne_or_ne _ _ hfits, (BitVec.toInt_srem _ _).trans (Int.tmod_def _ _)⟩
  · rw [hmin, hneg, divs_intMin_neg_one]
    exact ⟨rfl, rfl⟩

/-- Settles O38: quotient and remainder of bit vectors are those of their values. -/
theorem unsignedDivideQuotientAndRemainder : Obligations.UnsignedDivideQuotientAndRemainder := by
  intro rs rt s
  obtain ⟨t, ht, hres⟩ := finishHiLo_result (divu (s.readReg rs) (s.readReg rt) s.hi s.lo) s
  refine ⟨t, _, _, ht, hres, fun hzero => ?_, fun hne => ?_⟩
  · rw [hzero]
    exact divu_zero _ _ _
  · rw [divu_of_ne_zero _ _ _ hne]
    exact ⟨BitVec.toNat_udiv, BitVec.toNat_umod⟩

/-- Settles O39: the word written back is HI or LO, and write-back leaves both. -/
theorem movesFromHiLoCopy : Obligations.MovesFromHiLoCopy :=
  fun rd s => ⟨finish_result rd s.hi s, finish_result rd s.lo s⟩

/-- Settles O14: each accepted word is the encoding of its instruction; the other is LUI's with `rs` = 1. -/
theorem specExampleWordsDecode : Obligations.SpecExampleWordsDecode := by
  refine ⟨?_, ?_, ?_, ?_, ?_, ?_, ?_, ?_, ?_, ?_, ?_, ?_, ?_, rfl⟩ <;> exact decode_of_encode rfl

end Sys2Proof.Machine
end

section
/-!
SUPPORT. The proofs of the statements on logic, shifts and comparisons (42_logical_shift_compare.md). First what the
library of Laws/ does not say yet: the bits of a zero-extended immediate, what each shift of the ALU delivers in numbers,
the 0/1 word of each comparison. Then the statements, each a write-back of such a value.
-/

namespace Sys2Proof.Machine

/-! ## The zero-extended immediate (R70) -/

theorem zext16_toNat (imm : Imm16) : (zext16 imm).toNat = imm.toNat :=
  BitVec.toNat_setWidth_of_le (by decide)

/-- Above bit 15 both sides are 0. -/
theorem zext16_getLsbD (imm : Imm16) (k : Nat) : (zext16 imm).getLsbD k = imm.getLsbD k := by
  simp only [BitVec.getLsbD, zext16_toNat]

/-! ## The shifts (R89) -/

theorem shl_toNat (a b : Word) : (shl a b).toNat = b.toNat * 2 ^ shiftAmount a % 2 ^ 32 := by
  rw [shl, BitVec.toNat_shiftLeft, Nat.shiftLeft_eq]

theorem shrl_toNat (a b : Word) : (shrl a b).toNat = b.toNat / 2 ^ shiftAmount a := by
  rw [shrl, BitVec.toNat_ushiftRight, Nat.shiftRight_eq_div_pow]

/-- Replicating bit 31 is division rounding down. -/
theorem shra_toInt (a b : Word) : (shra a b).toInt = b.toInt / 2 ^ shiftAmount a := by
  rw [shra, BitVec.toInt_sshiftRight, Int.shiftRight_eq_div_pow]
  norm_cast

/-- LUI's shift loses no bit: the product is below 2^32. -/
theorem shl_luiAmount_zext16_toNat (imm : Imm16) : (shl luiAmount (zext16 imm)).toNat = imm.toNat * 2 ^ 16 := by
  have hamount : shiftAmount luiAmount = 16 := by decide
  rw [shl_toNat, hamount, zext16_toNat]
  exact Nat.mod_eq_of_lt (by omega)

/-! ## The comparisons (R89) -/

theorem slts_eq_ite (a b : Word) : slts a b = if a.toInt < b.toInt then 1#32 else 0#32 := by
  simp only [slts, boolWord, decide_eq_true_eq]

theorem sltu_eq_ite (a b : Word) : sltu a b = if a.toNat < b.toNat then 1#32 else 0#32 := by
  simp only [sltu, boolWord, decide_eq_true_eq]

/-! ## The statements -/

/-- Settles O40: write-back always answers, and the word written is the bitwise combination of the two registers. -/
theorem registerLogicActsBitwise : Obligations.RegisterLogicActsBitwise :=
  fun _ _ _ _ => ⟨finish_result_of fun _ => BitVec.getLsbD_and, finish_result_of fun _ => BitVec.getLsbD_or,
    finish_result_of fun _ => BitVec.getLsbD_xor⟩

/-- Settles O41: the second operand has the bits of the immediate; LUI shifts it by 16. -/
theorem immediateLogicZeroExtends : Obligations.ImmediateLogicZeroExtends := by
  intro rt rs imm s
  refine ⟨finish_result_of fun k => ?_, finish_result_of fun k => ?_, finish_result_of fun k => ?_,
    finish_result_of (shl_luiAmount_zext16_toNat imm)⟩
  · rw [BitVec.getLsbD_and, zext16_getLsbD]
  · rw [BitVec.getLsbD_or, zext16_getLsbD]
  · rw [BitVec.getLsbD_xor, zext16_getLsbD]

/-- Settles O42: the amount the ALU takes from the extended `shamt` is `shamt` itself. -/
theorem immediateShiftsByShamt : Obligations.ImmediateShiftsByShamt := by
  intro rd rt shamt s
  rw [← shiftAmount_shamtWord shamt]
  exact ⟨finish_result_of (shl_toNat _ _), finish_result_of (shrl_toNat _ _), finish_result_of (shra_toInt _ _)⟩

/-- Settles O43: the amount the ALU takes from `x[rs]` is its value modulo 32. -/
theorem variableShiftsByLowFiveBits : Obligations.VariableShiftsByLowFiveBits := by
  intro rd rt rs s
  rw [← shiftAmount_eq (s.readReg rs)]
  exact ⟨finish_result_of (shl_toNat _ _), finish_result_of (shrl_toNat _ _)⟩

/-- Settles O44: the word written back is the 0/1 word of the comparison, with `sext16` as the extended immediate. -/
theorem setLessThanWritesOneOrZero : Obligations.SetLessThanWritesOneOrZero := by
  intro rd rs rt imm s
  rw [← sext16_toInt imm]
  simp only [← slts_eq_ite, ← sltu_eq_ite]
  exact ⟨finish_result rd _ s, finish_result rd _ s, finish_result rt _ s, finish_result rt _ s⟩

end Sys2Proof.Machine
end

section
/-!
SUPPORT. The proofs of the statements on branches and jumps (43_branch_jump.md). First the laws they need and the library
of Laws/ does not have: the address a branch leaves in `npc`, each branch with its condition on the registers themselves
in place of the CMP result, when the sum of JR is delivered, and where a branch or jump leaves `npc`. Then the statements.
-/

namespace Sys2Proof.Machine

/-! ## The shared branches, taken on a condition (R97, R99) -/

section
variable (p : Prop) [Decidable p] (off : Imm16) (s : State)

/-- R71, R97: the target when taken, the fall-through when not. -/
theorem branchNpc_decide (oldNpc : Word) :
    branchNpc (decide p) oldNpc off = if p then oldNpc + offsetBytes off else oldNpc + 4#32 := by
  simp only [branchNpc, branchTarget_eq, decide_eq_true_eq]

/-- The same, in the form of `takenTarget`. -/
theorem branchNpc_decide_eq_getD (oldNpc : Word) :
    branchNpc (decide p) oldNpc off = (if p then some (oldNpc + offsetBytes off) else none).getD (oldNpc + 4#32) := by
  rw [branchNpc_decide]
  split <;> rfl

theorem branch_decide_result :
    ∃ t, branch (decide p) off s = .next t ∧
      JumpResult s t (if p then s.npc + offsetBytes off else s.npc + 4#32) := by
  rw [← branchNpc_decide]
  exact branch_result _ off s

theorem branchLink_decide_result :
    ∃ t, branchLink (decide p) off s = .next t ∧
      if p then LinkResult s t (s.npc + offsetBytes off)
      else if s.params.linkOnNotTaken = true then LinkResult s t (s.npc + 4#32)
      else JumpResult s t (s.npc + 4#32) := by
  obtain ⟨t, ht, hlink, hjump⟩ := branchLink_result (decide p) off s
  rw [branchNpc_decide] at hlink hjump
  refine ⟨t, ht, ?_⟩
  split
  · next hp => simpa only [hp, if_true] using hlink (by simp [hp])
  · next hp =>
    rw [if_neg hp] at hlink hjump
    split
    · next hparam => exact hlink (by simp [hparam])
    · next hparam => exact hjump (by simp [hp, hparam])

end

/-! ## Each branch, with its condition on the registers (R94, R134 to R141) -/

section
variable (rs rt : RegIdx) (off : Imm16) (s : State)

theorem exec_beq : exec (.beq rs rt off) s = branch (decide (s.readReg rs = s.readReg rt)) off s :=
  congrArg (branch · off s) (condEq_cmpDiff _ _)

theorem exec_bne : exec (.bne rs rt off) s = branch (decide (s.readReg rs ≠ s.readReg rt)) off s :=
  congrArg (branch · off s) (condNe_cmpDiff _ _)

theorem exec_blez : exec (.blez rs rt off) s = branch (decide ((s.readReg rs).toInt ≤ 0)) off s :=
  congrArg (fun out => branch (condLez out) off s) (cmpDiff_zero _)

theorem exec_bgtz : exec (.bgtz rs rt off) s = branch (decide (0 < (s.readReg rs).toInt)) off s :=
  congrArg (fun out => branch (condGtz out) off s) (cmpDiff_zero _)

theorem exec_bltz : exec (.bltz rs off) s = branch (decide ((s.readReg rs).toInt < 0)) off s :=
  congrArg (fun out => branch (condLtz out) off s) (cmpDiff_zero _)

theorem exec_bgez : exec (.bgez rs off) s = branch (decide (0 ≤ (s.readReg rs).toInt)) off s :=
  congrArg (fun out => branch (condGez out) off s) (cmpDiff_zero _)

theorem exec_bltzal : exec (.bltzal rs off) s = branchLink (decide ((s.readReg rs).toInt < 0)) off s :=
  congrArg (fun out => branchLink (condLtz out) off s) (cmpDiff_zero _)

theorem exec_bgezal : exec (.bgezal rs off) s = branchLink (decide (0 ≤ (s.readReg rs).toInt)) off s :=
  congrArg (fun out => branchLink (condGez out) off s) (cmpDiff_zero _)

end

/-! ## The jumps (R142 to R144) -/

theorem exec_j (target : Target26) (s : State) :
    exec (.j target) s = .next (s.redirect (regionTarget s.pc target)) := by
  rw [← jumpTarget_eq]
  rfl

theorem exec_jal (target : Target26) (s : State) :
    exec (.jal target) s = .next (s.link.redirect (regionTarget s.pc target)) := by
  rw [← jumpTarget_eq]
  rfl

section
variable {rs rt : RegIdx} {s : State} (rd : RegIdx)

theorem exec_jr_of_sum {w : Word} (h : sadd s.params.eaOverflowCheck (s.readReg rs) (s.readReg rt) = .ok w) :
    exec (.jr rs rt rd) s = .next (s.redirect w) := by
  simp only [exec, execJr, h]

theorem exec_jr_of_overflow {e : Fault}
    (h : sadd s.params.eaOverflowCheck (s.readReg rs) (s.readReg rt) = .error e) :
    exec (.jr rs rt rd) s = .fault e := by
  simp only [exec, execJr, h, raise]

end

/-- R90: a sum is delivered if it is not checked, or if it fits. -/
theorem sadd_of_unchecked_or_fits {check : Bool} {a b : Word}
    (h : check = false ∨ FitsSigned32 (a.toInt + b.toInt)) : sadd check a b = .ok (a + b) := by
  obtain rfl | hfits := h
  · exact sadd_unchecked a b
  · exact sadd_fits check ((fitsS32_iff _).mpr hfits)

/-! ## Where a branch or jump leaves `npc` (R97, R98) -/

section
variable {p : Prop} [Decidable p] {off : Imm16} {s t : State}

theorem branch_decide_npc (h : branch (decide p) off s = .next t) :
    t.npc = (if p then some (s.npc + offsetBytes off) else none).getD (s.npc + 4#32) := by
  cases h
  exact branchNpc_decide_eq_getD p off s.npc

/-- The link changes r31 alone, so `npc` is that of the branch without it. -/
theorem branchLink_decide_npc (h : branchLink (decide p) off s = .next t) :
    t.npc = (if p then some (s.npc + offsetBytes off) else none).getD (s.npc + 4#32) := by
  rw [← branchNpc_decide_eq_getD]
  obtain rfl | rfl := branchLink_inv h <;> rfl

end

/-- R97, R98: a branch or jump leaves in `npc` its target, or the fall-through when it is not taken. -/
theorem exec_npc_of_control {i : Instr} {s t : State} (hi : isControl i = true) (h : exec i s = .next t) :
    t.npc = (takenTarget i s).getD (s.npc + 4#32) := by
  cases i
  case beq | bne | blez | bgtz | bltz | bgez =>
    simp only [exec_beq, exec_bne, exec_blez, exec_bgtz, exec_bltz, exec_bgez] at h
    exact branch_decide_npc h
  case bltzal | bgezal =>
    simp only [exec_bltzal, exec_bgezal] at h
    exact branchLink_decide_npc h
  case j target =>
    rw [exec_j] at h
    cases h
    rfl
  case jal target =>
    rw [exec_jal] at h
    cases h
    rfl
  case jr rs rt rd =>
    obtain hsum | ⟨_, hsum⟩ := sadd_inv (check := s.params.eaOverflowCheck) (a := s.readReg rs) (b := s.readReg rt)
    · rw [exec_jr_of_sum rd hsum] at h
      cases h
      rfl
    · rw [exec_jr_of_overflow rd hsum] at h
      cases h
  all_goals cases hi

/-- The target is read from the registers, `pc` and `npc`, so that the word in `ir` does not show in it. -/
theorem takenTarget_withIr (i : Instr) (s : State) (x : Word) : takenTarget i { s with ir := x } = takenTarget i s := rfl

/-- R97, R98: the same for a step that meets the branch or jump at `pc`. -/
theorem step_npc_of_control {i : Instr} {s t : State} (hat : s.At i) (hi : isControl i = true)
    (h : step s = .next t) : t.npc = (takenTarget i s).getD (s.npc + 4#32) := by
  obtain ⟨hstep, _⟩ := stepRunsTheDecodedInstruction
  rw [hstep s i hat] at h
  rw [← takenTarget_withIr i s (s.mem.wordAt s.pc.toNat)]
  exact exec_npc_of_control hi h

/-- R22: every step moves `pc` to `npc`. -/
theorem step_pc {s t : State} (h : step s = .next t) : t.pc = s.npc := by
  obtain ⟨_, w, i, _, _, hexec⟩ := step_inv h
  exact exec_pc (s := { s with ir := w }) hexec

/-! ## The statements -/

/-- Settles O23: every step moves `pc` to `npc`, and the branch or jump left its target or the fall-through there. -/
theorem branchActsAfterOneDelaySlot : Obligations.BranchActsAfterOneDelaySlot := by
  intro s t u i hat hi hst htu
  have hpc : t.pc = s.npc := step_pc hst
  have hnext : u.pc = (takenTarget i s).getD (s.npc + 4#32) := (step_pc htu).trans (step_npc_of_control hat hi hst)
  refine ⟨hpc, hnext, fun target hseq htaken => ⟨hpc.trans hseq, ?_⟩⟩
  rw [hnext, htaken, Option.getD_some]

/-- Settles O45: CMP delivers 0 exactly when the two registers are equal. -/
theorem equalityBranches : Obligations.EqualityBranches := by
  intro rs rt off s
  rw [exec_beq, exec_bne]
  exact ⟨branch_decide_result _ off s, branch_decide_result _ off s⟩

/-- Settles O46: CMP with r0 delivers `x[rs]` itself. -/
theorem signBranches : Obligations.SignBranches := by
  intro rs rt off s
  rw [exec_blez, exec_bgtz, exec_bltz, exec_bgez]
  exact ⟨branch_decide_result _ off s, branch_decide_result _ off s, branch_decide_result _ off s,
    branch_decide_result _ off s⟩

/-- Settles O47: the condition is on `x[rs]` of the state before the link, as in O46. -/
theorem linkingBranches : Obligations.LinkingBranches := by
  intro rs off s
  rw [exec_bltzal, exec_bgezal]
  exact ⟨branchLink_decide_result _ off s, branchLink_decide_result _ off s⟩

/-- Settles O48: both redirect to the region target, JAL after the link. -/
theorem jumpsToRegionTarget : Obligations.JumpsToRegionTarget :=
  fun target s => ⟨⟨_, exec_j target s, redirect_result _ s⟩, ⟨_, exec_jal target s, link_redirect_result _ s⟩⟩

/-- Settles O49: JR fails exactly when its sum does. -/
theorem jumpRegisterAddsRsAndRt : Obligations.JumpRegisterAddsRsAndRt := by
  intro rs rt rd s
  refine ⟨fun h => ⟨_, exec_jr_of_sum rd (sadd_of_unchecked_or_fits h), redirect_result _ s⟩, fun hcheck hover => ?_⟩
  apply exec_jr_of_overflow
  rw [hcheck]
  exact sadd_overflow (fitsS32_eq_false hover)

end Sys2Proof.Machine
end

section
/-!
SUPPORT. The proofs of the statements on loads and stores (44_load_store.md). First the laws they need and the library
of Laws/ does not have: the byte read and its extensions, a failing address sum, the byte loads and the loads of the
containing word with any way of making their value, the store outside, LWL and LWR byte by byte. Then the statements.
-/

namespace Sys2Proof.Machine

/-! ## The extension of a byte read (R146, R147) -/

theorem sext8_setWidth (b : Byte) : sext8 (b.setWidth 32) = b.signExtend 32 := by
  rw [sext8, BitVec.setWidth_setWidth_of_le b (by decide), BitVec.setWidth_eq]

theorem zext8_setWidth (b : Byte) : zext8 (b.setWidth 32) = b.setWidth 32 := by
  rw [zext8, BitVec.setWidth_setWidth_of_le b (by decide), BitVec.setWidth_eq]

/-- A read of one byte delivers the byte at the address itself. -/
theorem Memory.memRead_one {m : Memory} (hb : m.blockSize = 4) {ea : Word} (hin : alignedBase ea + 4 ≤ m.size) :
    m.memRead ea 1 = .ok ((m.byteAt ea.toNat).setWidth 32) := by
  rw [Memory.memRead_inside hb hin (byteOffset_lt ea), ← beWord_one]
  rfl

/-! ## Words, byte by byte -/

theorem eq_of_byteOf_eq {v w : Word} (h : ∀ p < 4, byteOf v p = byteOf w p) : v = w := by
  rw [word_eq_bytes v, word_eq_bytes w, h 0 (by decide), h 1 (by decide), h 2 (by decide), h 3 (by decide)]

/-! ## What a load leaves in the registers and the store -/

section
variable {s t : State} {rt r : RegIdx} {v : Word}

theorem LoadResult.readReg_self (h : LoadResult s t rt v) (hrt : rt ≠ 0#5) : t.readReg rt = v := by
  obtain ⟨hwrite, _⟩ := h
  rw [hwrite rt, if_neg hrt, if_pos rfl]

theorem LoadResult.readReg_of_ne (h : LoadResult s t rt v) (hr : r ≠ rt) : t.readReg r = s.readReg r := by
  obtain ⟨hwrite, _⟩ := h
  rw [hwrite r, if_neg hr]
  split
  · next hzero => rw [hzero, State.readReg_zero]
  · rfl

end

theorem SameMemory.trans {s t u : State} (hst : SameMemory s t) (htu : SameMemory t u) : SameMemory s u := by
  obtain ⟨hsize, hblock, hbytes⟩ := hst
  obtain ⟨hsize', hblock', hbytes'⟩ := htu
  exact ⟨hsize'.trans hsize, hblock'.trans hblock, fun a => (hbytes' a).trans (hbytes a)⟩

/-! ## The address sum (R90, R145) -/

section
variable {rs : RegIdx} {imm : Imm16} {s : State}

theorem effectiveAddress_of_unchecked_or_fits
    (h : s.params.eaOverflowCheck = false ∨ FitsSigned32 ((s.readReg rs).toInt + imm.toInt)) :
    effectiveAddress rs imm s = .ok (s.readReg rs + imm.signExtend 32) := by
  rw [← sext16_toInt] at h
  exact sadd_of_unchecked_or_fits h

theorem effectiveAddress_overflow (hcheck : s.params.eaOverflowCheck = true)
    (hover : ¬FitsSigned32 ((s.readReg rs).toInt + imm.toInt)) :
    effectiveAddress rs imm s = .error .arithmeticOverflow := by
  rw [← sext16_toInt] at hover
  rw [effectiveAddress, hcheck]
  exact sadd_overflow (fitsS32_eq_false hover)

/-- A load or store whose address sum fails does nothing else. -/
theorem load_unaddressable {e : Fault} (h : effectiveAddress rs imm s = .error e) (rt : RegIdx) (al : Nat)
    (value : Word → Except Fault Word) : load rt rs imm al value s = .fault e := by
  simp only [load, h, raise]

theorem store_unaddressable {e : Fault} (h : effectiveAddress rs imm s = .error e) (n : Nat) (v : Word) :
    store rs imm n v s = .fault e := by
  simp only [store, h, raise]

end

/-- Offsets that differ by `k` give addresses that differ by `k`. -/
theorem signExtend_of_toInt_eq_add {a b : Imm16} {k : Nat} (h : b.toInt = a.toInt + k) :
    b.signExtend 32 = a.signExtend 32 + BitVec.ofNat 32 k := by
  rw [BitVec.signExtend, BitVec.signExtend, h, BitVec.ofInt_add, BitVec.ofInt_natCast]

/-! ## Loads and stores at an address, within the store and outside -/

section
variable {rt rs : RegIdx} {imm : Imm16} {s : State} {ea : Word} (hb : s.mem.blockSize = 4)
  (hea : effectiveAddress rs imm s = .ok ea)
include hb hea

/-- A load of one byte, whatever word is made of it. -/
theorem loadByte_result (f : Word → Word) (hin : alignedBase ea + 4 ≤ s.mem.size) :
    ∃ t, load rt rs imm 1 (fun ea => (s.mem.memRead ea 1).map f) s = .next t ∧
      LoadResult s t rt (f ((s.mem.byteAt ea.toNat).setWidth 32)) :=
  load_result hea (Nat.mod_one _) (congrArg (Except.map f) (Memory.memRead_one hb hin))

theorem loadByte_outside (f : Word → Word) (hout : s.mem.size < alignedBase ea + 4) :
    load rt rs imm 1 (fun ea => (s.mem.memRead ea 1).map f) s = .fault .invalidAddress :=
  load_unreadable hea (Nat.mod_one _) (congrArg (Except.map f) (Memory.memRead_outside hb hout 1))

/-- A load of the containing word, whatever word is made of it at its address. -/
theorem loadContaining_result (f : Word → Word → Word) (hin : alignedBase ea + 4 ≤ s.mem.size) :
    ∃ t, load rt rs imm 1 (fun ea => (s.mem.readContaining ea).map (f ea)) s = .next t ∧
      LoadResult s t rt (f ea (s.mem.wordAt (alignedBase ea))) :=
  load_result hea (Nat.mod_one _) (congrArg (Except.map (f ea)) (Memory.readContaining_inside hb hin))

theorem loadContaining_outside (f : Word → Word → Word) (hout : s.mem.size < alignedBase ea + 4) :
    load rt rs imm 1 (fun ea => (s.mem.readContaining ea).map (f ea)) s = .fault .invalidAddress :=
  load_unreadable hea (Nat.mod_one _) (congrArg (Except.map (f ea)) (Memory.readContaining_outside hb hout))

theorem store_outside {n : Nat} (hal : ea.toNat % n = 0) (hout : s.mem.size < alignedBase ea + 4) (v : Word) :
    store rs imm n v s = .fault .invalidAddress :=
  store_unwritable hea hal (Memory.memWrite_outside hb hout n v)

/-- R149: each byte of the word that LWL leaves in `rt` and `lmd`. -/
theorem exec_lwl_result (hin : alignedBase ea + 4 ≤ s.mem.size) :
    ∃ t v, exec (.lwl rt rs imm) s = .next t ∧ LoadResult s t rt v ∧
      ∀ p < 4, byteOf v p =
        if p + ea.toNat % 4 < 4 then s.mem.byteAt (ea.toNat + p) else byteOf (s.readReg rt) p := by
  obtain ⟨t, ht, hres⟩ :=
    loadContaining_result (rt := rt) hb hea (fun ea w => mergeLeft (byteOffset ea) w (s.readReg rt)) hin
  refine ⟨t, _, ht, hres, fun p hp => (byteOf_mergeLeft (byteOffset_lt ea) hp _ _).trans ?_⟩
  have hsum := alignedBase_add_byteOffset ea
  refine ite_congr rfl (fun hword : p + byteOffset ea < 4 => ?_) fun _ => rfl
  rw [byteOf_wordAt _ _ hword]
  congr 1
  omega

/-- R150: each byte of the word that LWR leaves in `rt` and `lmd`. -/
theorem exec_lwr_result (hin : alignedBase ea + 4 ≤ s.mem.size) :
    ∃ t v, exec (.lwr rt rs imm) s = .next t ∧ LoadResult s t rt v ∧
      ∀ p < 4, byteOf v p =
        if 3 ≤ p + ea.toNat % 4 then s.mem.byteAt (ea.toNat - (3 - p)) else byteOf (s.readReg rt) p := by
  obtain ⟨t, ht, hres⟩ :=
    loadContaining_result (rt := rt) hb hea (fun ea w => mergeRight (byteOffset ea) w (s.readReg rt)) hin
  refine ⟨t, _, ht, hres, fun p hp => (byteOf_mergeRight (byteOffset_lt ea) hp _ _).trans ?_⟩
  have hsum := alignedBase_add_byteOffset ea
  have hlt := byteOffset_lt ea
  refine ite_congr rfl (fun hword : 3 ≤ p + byteOffset ea => ?_) fun _ => rfl
  rw [byteOf_wordAt _ _ (by omega)]
  congr 1
  omega

end

/-! ## The statements -/

/-- Settles O50: the address is a checked sum, and each load and store fails as its address does. -/
theorem effectiveAddressIsBasePlusOffset : Obligations.EffectiveAddressIsBasePlusOffset := by
  intro rt rs imm s
  refine ⟨effectiveAddress_of_unchecked_or_fits, fun hcheck hover => ?_⟩
  have hea : effectiveAddress rs imm s = .error .arithmeticOverflow := effectiveAddress_overflow hcheck hover
  have hload := load_unaddressable hea rt
  have hstore := store_unaddressable hea
  simp only [List.forall_mem_cons, List.not_mem_nil, false_imp_iff, implies_true, and_true]
  exact ⟨hea, hload _ _, hload _ _, hload _ _, hload _ _, hload _ _, hstore _ _, hstore _ _, hstore _ _⟩

/-- Settles O51: both read the byte at EA out of its aligned word and extend it. -/
theorem byteLoadsExtendTheByte : Obligations.ByteLoadsExtendTheByte := by
  intro rt rs imm s ea hb hea
  refine ⟨fun hin => ?_, fun hout => ⟨loadByte_outside hb hea sext8 hout, loadByte_outside hb hea zext8 hout⟩⟩
  have hlb := loadByte_result (rt := rt) hb hea sext8 hin
  have hlbu := loadByte_result (rt := rt) hb hea zext8 hin
  rw [sext8_setWidth] at hlb
  rw [zext8_setWidth] at hlbu
  exact ⟨hlb, hlbu⟩

/-- Settles O52: an aligned EA is the address of its own word. -/
theorem loadWordReadsAlignedWord : Obligations.LoadWordReadsAlignedWord := by
  intro rt rs imm s ea hb hea
  refine ⟨fun hal hin => load_result hea hal ?_, load_misaligned hea, fun hal hout => load_unreadable hea hal ?_⟩
  · have hplace : byteOffset ea = 0 := hal
    rw [Memory.memRead_inside hb (by rwa [alignedBase_of_aligned hal]) (by omega), beWord_bytesAt_four]
  · exact Memory.memRead_outside hb (by rwa [alignedBase_of_aligned hal]) 4

/-- Settles O53: the merges on the containing word, which both read at any EA. -/
theorem unalignedLoadsMergeBytes : Obligations.UnalignedLoadsMergeBytes :=
  fun _ _ _ _ _ hb hea =>
    ⟨fun hin => ⟨exec_lwl_result hb hea hin, exec_lwr_result hb hea hin⟩,
      fun hout => ⟨loadContaining_outside hb hea _ hout, loadContaining_outside hb hea _ hout⟩⟩

/-- Settles O54: each byte of the misaligned word is read by LWR at its end, or was put in its place by LWL before. -/
theorem lwlThenLwrLoadsMisalignedWord : Obligations.LwlThenLwrLoadsMisalignedWord := by
  intro rt rs a b s hb hparam hrt hne hab hwrap hin
  have hbase : s.readReg rs + b.signExtend 32 = s.readReg rs + a.signExtend 32 + 3#32 := by
    rw [signExtend_of_toInt_eq_add (k := 3) hab, BitVec.add_assoc]
  have hea := effectiveAddress_of_unchecked_or_fits (rs := rs) (imm := a) (.inl hparam)
  rw [hbase] at hin
  generalize s.readReg rs + a.signExtend 32 = ea at *
  have hlast : (ea + 3#32).toNat = ea.toNat + 3 := BitVec.toNat_add_of_lt hwrap
  rw [hlast] at hin
  obtain ⟨t, v, ht, hload, hv⟩ := exec_lwl_result (rt := rt) hb hea (by unfold alignedBase; omega)
  have ⟨_, _, _, hmem, ⟨_, hparams⟩, _⟩ := hload
  have ⟨_, hblock, hbytes⟩ := hmem
  have hea' : effectiveAddress rs b t = .ok (ea + 3#32) := by
    rw [effectiveAddress_of_unchecked_or_fits (.inl (hparams ▸ hparam)), hload.readReg_of_ne hne.symm, hbase]
  obtain ⟨u, w, hu, hload', hw⟩ :=
    exec_lwr_result (rt := rt) (hblock.trans hb) hea' (by unfold alignedBase; omega)
  have ⟨_, _, _, hmem', _⟩ := hload'
  refine ⟨t, u, ht, hu, ?_, fun r hr => (hload'.readReg_of_ne hr).trans (hload.readReg_of_ne hr), hmem.trans hmem'⟩
  rw [hload'.readReg_self hrt]
  refine eq_of_byteOf_eq fun p hp => ?_
  rw [hw p hp, byteOf_wordAt _ _ hp, hlast]
  split
  · rw [hbytes]
    congr 1
    omega
  · rw [hload.readReg_self hrt, hv p hp, if_pos (by omega)]

/-- Settles O55: the bytes of each store stay within the aligned word that contains EA. -/
theorem storesWriteExactlyTheirBytes : Obligations.StoresWriteExactlyTheirBytes := by
  intro rt rs imm s ea hb hea
  have hplace := byteOffset_lt ea
  refine ⟨fun hin => ⟨store_result hea (Nat.mod_one _) hb hin hplace, fun hal => ?_, fun hal => ?_⟩,
    store_misaligned hea, store_misaligned hea, fun hout => ⟨store_outside hb hea (Nat.mod_one _) hout _,
      fun hal => store_outside hb hea hal hout _, fun hal => store_outside hb hea hal hout _⟩⟩
  · exact store_result hea hal hb hin (by unfold byteOffset; omega)
  · exact store_result hea hal hb hin (by unfold byteOffset; omega)

end Sys2Proof.Machine
end

section
/-!
SUPPORT. The proof of the statement on the error kinds of a step (60_exceptions.md). First the inversion of a failing
step, by the stage that raises, which the library of Laws/ does not have. Then the statement, from the failures of each
stage.
-/

namespace Sys2Proof.Machine

/-! ## The stage that raises (R84 to R86) -/

/-- A step that fails failed in the fetch, in the decoder, or in the instruction it decoded. -/
theorem step_fault {s : State} {e : Fault} (h : step s = .fault e) :
    fetch s = .error e ∨ e = .invalidInstruction ∨ ∃ i w, exec i { s with ir := w } = .fault e := by
  obtain ⟨_, h'⟩ | ⟨_, ⟨f, hfetch, h'⟩ | ⟨w, _, ⟨_, _, h'⟩ | ⟨i, _, h'⟩⟩⟩ := step_cases s <;> rw [h'] at h
  · cases h
  · cases h
    exact .inl hfetch
  · cases h
    exact .inr (.inl rfl)
  · exact .inr (.inr ⟨i, w, h⟩)

/-! ## The statements -/

/-- Settles O19: the fetch raises the two address kinds, the decoder `InvalidInstruction`, and an instruction an overflow
or an address kind. -/
theorem stepRaisesOnlyFourKinds : Obligations.StepRaisesOnlyFourKinds := by
  intro s e h
  obtain hfetch | hdecode | ⟨i, w, hexec⟩ := step_fault h
  · obtain hal | haddr := fetch_error hfetch
    · exact .inr (.inl hal)
    · exact .inr (.inr (.inl haddr))
  · exact .inl hdecode
  · obtain ⟨hover, _⟩ | hal | haddr := exec_fault hexec
    · exact .inr (.inr (.inr hover))
    · exact .inr (.inl hal)
    · exact .inr (.inr (.inl haddr))

end Sys2Proof.Machine
end

section
/-!
SUPPORT. The proofs of the statements on reset and on the hazards of the PC protocol (70_reset_and_hazards.md). First the
laws they need and the library of Laws/ does not have: what a step does in terms of the instruction that stands at `pc`,
and what r31 holds after a link. Then the statements.
-/

namespace Sys2Proof.Machine

/-! ## A step that meets a known instruction (R84, R96, R97) -/

section
variable {i : Instr} {s t : State}

/-- The instruction at `pc` is read from memory and `pc` alone. -/
theorem State.At.congr (hat : s.At i) (hmem : t.mem = s.mem) (hpc : t.pc = s.pc) : t.At i := by
  unfold State.At
  rwa [hmem, hpc]

/-- A step executes the instruction at `pc`, with its word in `ir`. -/
theorem exec_of_step_at (hat : s.At i) (h : step s = .next t) : ∃ w, exec i { s with ir := w } = .next t := by
  obtain ⟨hstep, _⟩ := stepRunsTheDecodedInstruction
  exact ⟨_, (hstep s i hat).symm.trans h⟩

theorem step_npc_of_not_control (hat : s.At i) (hi : isControl i = false) (h : step s = .next t) :
    t.npc = s.npc + 4#32 := by
  obtain ⟨w, hexec⟩ := exec_of_step_at hat h
  exact exec_npc_of_not_control (s := { s with ir := w }) hi hexec

theorem step_mem_of_not_store (hat : s.At i) (hi : isStore i = false) (h : step s = .next t) : t.mem = s.mem := by
  obtain ⟨w, hexec⟩ := exec_of_step_at hat h
  exact exec_mem_of_not_store (s := { s with ir := w }) hi hexec

/-- Only a branch or jump has a target. -/
theorem isControl_of_takenTarget {target : Word} (h : takenTarget i s = some target) : isControl i = true := by
  cases i
  case beq | bne | blez | bgtz | bltz | bgez | bltzal | bgezal | j | jal | jr => rfl
  all_goals cases h

/-- R97, R98: a branch that is taken or a jump leaves its target in `npc`. -/
theorem step_npc_of_takenTarget {target : Word} (hat : s.At i) (htaken : takenTarget i s = some target)
    (h : step s = .next t) : t.npc = target := by
  rw [step_npc_of_control hat (isControl_of_takenTarget htaken) h, htaken, Option.getD_some]

end

/-! ## The link register (R99) -/

section
variable {s t : State}

theorem LinkResult.readReg_linkReg {target : Word} (h : LinkResult s t target) : t.readReg 31#5 = s.npc + 4#32 := by
  obtain ⟨_, hwrites, _⟩ := h
  simpa using hwrites 31#5

/-- A branch that is taken, or that links all the same by `LINK_ON_NOT_TAKEN`, leaves the link address in r31. -/
theorem branchLink_decide_readReg_linkReg {p : Prop} [Decidable p] {off : Imm16}
    (hlink : p ∨ s.params.linkOnNotTaken = true) (h : branchLink (decide p) off s = .next t) :
    t.readReg 31#5 = s.npc + 4#32 := by
  obtain ⟨t', ht', hlinked, _⟩ := branchLink_result (decide p) off s
  cases ht'.symm.trans h
  exact (hlinked (by simpa using hlink)).readReg_linkReg

/-- The same for the step of an instruction that is such a branch. -/
theorem step_branchLink_readReg_linkReg {i : Instr} {p : Prop} [Decidable p] {off : Imm16} (hat : s.At i)
    (hlink : p ∨ s.params.linkOnNotTaken = true)
    (hbranch : ∀ w, exec i { s with ir := w } = branchLink (decide p) off { s with ir := w }) (h : step s = .next t) :
    t.readReg 31#5 = s.npc + 4#32 := by
  obtain ⟨w, hexec⟩ := exec_of_step_at hat h
  rw [hbranch] at hexec
  exact branchLink_decide_readReg_linkReg (s := { s with ir := w }) hlink hexec

theorem step_jal_readReg_linkReg {target : Target26} (hat : s.At (.jal target)) (h : step s = .next t) :
    t.readReg 31#5 = s.npc + 4#32 := by
  obtain ⟨w, hexec⟩ := exec_of_step_at hat h
  rw [exec_jal] at hexec
  cases hexec
  exact (link_redirect_result _ { s with ir := w }).readReg_linkReg

end

/-! ## The statements -/

/-- Settles O2: a reset keeps memory and parameters, which are all that a second reset takes from the CPU. -/
theorem resetZeroesRegistersAndKeepsMemory : Obligations.ResetZeroesRegistersAndKeepsMemory := by
  intro c d d'
  cases c <;> exact ⟨⟨_, rfl, State.readReg_of_zeros rfl, rfl, rfl, rfl, rfl, rfl, rfl, rfl⟩, rfl⟩

/-- Settles O4: the first step moves `pc` from 0 to `npc = 0`, where an instruction that wrote no memory still stands. -/
theorem afterResetAddressZeroRunsTwice : Obligations.AfterResetAddressZeroRunsTwice := by
  intro s t i hat hspc hsnpc hst
  have htpc : t.pc = 0#32 := (step_pc hst).trans hsnpc
  have hseq : isControl i = false → t.npc = 4#32 := fun hi => by
    rw [step_npc_of_not_control hat hi hst, hsnpc, BitVec.zero_add]
  refine ⟨htpc, hseq, fun hi => ?_, fun hstore => ?_⟩
  · rw [step_npc_of_control hat hi hst, hsnpc, BitVec.zero_add]
  · have hagain : t.At i := hat.congr (step_mem_of_not_store hat hstore hst) (htpc.trans hspc.symm)
    refine ⟨hagain, fun hi u htu => ⟨(step_pc htu).trans (hseq hi), ?_⟩⟩
    rw [step_npc_of_not_control hagain hi htu, hseq hi]
    rfl

/-- Settles O24: the first step leaves T1 in `npc`, which is the old NPC that the branch or jump in the slot counts and
links from. -/
theorem branchInDelaySlotCountsFromFirstTarget : Obligations.BranchInDelaySlotCountsFromFirstTarget := by
  intro s t u v i j t1 hat htaken hst hslot hj htu huv
  obtain rfl : t.npc = t1 := step_npc_of_takenTarget hat htaken hst
  have hv : v.pc = (takenTarget j t).getD (t.npc + 4#32) := (step_pc huv).trans (step_npc_of_control hslot hj htu)
  have hsecond : ∀ {target}, takenTarget j t = some target → v.pc = target := fun h => by rw [hv, h, Option.getD_some]
  refine ⟨step_pc htu, hv, ?beq, ?bne, ?blez, ?bgtz, ?ltz, ?gez, ?jump, ?linkJal, ?linkBltzal, ?linkBgezal⟩
  case beq | bne | blez | bgtz =>
    rintro rs rt off rfl hcond
    exact hsecond (if_pos hcond)
  case ltz | gez =>
    rintro rs off (rfl | rfl) hcond <;> exact hsecond (if_pos hcond)
  case jump =>
    rintro target (rfl | rfl) <;> exact hsecond rfl
  case linkJal =>
    rintro target rfl
    exact step_jal_readReg_linkReg hslot htu
  case linkBltzal =>
    rintro rs off rfl hlink
    exact step_branchLink_readReg_linkReg hslot hlink (fun _ => exec_bltzal rs off _) htu
  case linkBgezal =>
    rintro rs off rfl hlink
    exact step_branchLink_readReg_linkReg hslot hlink (fun _ => exec_bgezal rs off _) htu

end Sys2Proof.Machine
end
